-- ==== Sys2Proof/Word.lean ====
section
/-!
DEFINITION. The two word types of the machine and the two readings of a 32-bit pattern.
00_scope.md R5 (XLEN, REMW, OPW, IDXW), R8.
-/

namespace Sys2Proof

/-- A byte of the program buffer; also a register index field and the pad byte (00_scope.md R5). -/
abbrev Byte := BitVec 8

/-- A 32-bit pattern: a register, the program counter or the remainder register (00_scope.md R5, R6). -/
abbrev Word := BitVec 32

/-- `s32(p)`: the signed reading of a 32-bit pattern, two's complement (00_scope.md R8). -/
def s32 (p : Word) : Int := p.toInt

/-- `u32(v)`: the 32-bit pattern of an integer taken modulo 2^32 (00_scope.md R8). -/
def u32 (v : Int) : Word := BitVec.ofInt 32 v

/-- `wrap32(v) = s32(u32(v))` (00_scope.md R8). -/
def wrap32 (v : Int) : Int := s32 (u32 v)

end Sys2Proof
end

