-- ==== Sys2Proof/Syntax.lean ====
section
/-!
DEFINITION. The instructions: one constructor per row of spec/opcode_table.json, operands in encoding order
(30_encoding.md R61, R65 to R69).
-/

namespace Sys2Proof

/-- An instruction with its operand fields.
`a`, `b`, `d`, `r` are register index bytes, any value 0 to 255 (R70); `pad` is the discarded byte of a comparison (R69);
`op` is the byte that decoded to IllegalOpcode, 15 to 255 (R62). -/
inductive Instr where
  | halt
  | load (d : Byte) (imm : BitVec 16)
  | add (a b d : Byte)
  | sub (a b d : Byte)
  | mul (a b d : Byte)
  | div (a b d : Byte)
  | jump (r : Byte)
  | jumpForward (r : Byte)
  | equal (a b pad : Byte)
  | notEqual (a b pad : Byte)
  | greaterThan (a b pad : Byte)
  | lessThan (a b pad : Byte)
  | greaterOrEqual (a b pad : Byte)
  | lessOrEqual (a b pad : Byte)
  | jumpIfEqual (r : Byte)
  | illegalOpcode (op : Byte)
deriving DecidableEq, Repr

end Sys2Proof
end

