-- ==== Sys2Proof/WellFormed.lean ====
section
/-!
DEFINITION. Which instruction terms stand for bytes of the hardware.
-/

namespace Sys2Proof

/-- The one thing an instruction term can say that no bytes say: IllegalOpcode with an opcode byte below 15
(30_encoding.md R62, R65).
An index byte of 32 or more is well formed: "Every operand byte value is accepted by the decoder" (R74). -/
def Instr.wellFormed (i : Instr) : Bool :=
  match i with
  | .illegalOpcode op => decide (15 ≤ op.toNat)
  | .halt | .load _ _ | .add _ _ _ | .sub _ _ _ | .mul _ _ _ | .div _ _ _ | .jump _ | .jumpForward _
  | .equal _ _ _ | .notEqual _ _ _ | .greaterThan _ _ _ | .lessThan _ _ _ | .greaterOrEqual _ _ _
  | .lessOrEqual _ _ _ | .jumpIfEqual _ => true

end Sys2Proof
end

