-- ==== Sys2Proof/Decode.lean ====
section
/-!
DEFINITION. The opcode decoder, the decoder of a whole instruction, and the encoder (30_encoding.md R60 to R80).
-/

namespace Sys2Proof

/-- The closed enumeration of opcodes (R60). The order written here is no byte value (R79). -/
inductive Opcode where
  | halt | load | add | sub | mul | div | jump | jumpForward
  | equal | notEqual | greaterThan | lessThan | greaterOrEqual | lessOrEqual
  | jumpIfEqual | illegalOpcode
deriving DecidableEq, Repr

/-- The five formats (R64). -/
inductive Format where
  | z | r | di | abd | abx
deriving DecidableEq, Repr

/-- What the decoder answers.
`noOpcodeByte`: it was given no byte.
`operandMissing op n`: the opcode byte decoded to `op`, whose format needs more than the `n` bytes given (R46, R173). -/
inductive DecodeResult where
  | ok (i : Instr)
  | noOpcodeByte
  | operandMissing (op : Opcode) (available : Nat)
deriving DecidableEq, Repr

/-- `Decode(b)`: total and pure, one byte in and one opcode out (R61 to R63). -/
def decodeOpcode (b : Byte) : Opcode :=
  match b.toNat with
  | 0 => .halt
  | 1 => .load
  | 2 => .add
  | 3 => .sub
  | 4 => .mul
  | 5 => .div
  | 6 => .jump
  | 7 => .jumpForward
  | 8 => .equal
  | 9 => .notEqual
  | 10 => .greaterThan
  | 11 => .lessThan
  | 12 => .greaterOrEqual
  | 13 => .lessOrEqual
  | 14 => .jumpIfEqual
  | _ => .illegalOpcode

/-- The one byte of each operation, and none for IllegalOpcode (30_encoding.md R61). -/
def Opcode.opcodeByte (op : Opcode) : Option Byte :=
  match op with
  | .halt => some 0
  | .load => some 1
  | .add => some 2
  | .sub => some 3
  | .mul => some 4
  | .div => some 5
  | .jump => some 6
  | .jumpForward => some 7
  | .equal => some 8
  | .notEqual => some 9
  | .greaterThan => some 10
  | .lessThan => some 11
  | .greaterOrEqual => some 12
  | .lessOrEqual => some 13
  | .jumpIfEqual => some 14
  | .illegalOpcode => none

/-- The format of each opcode (R61, R65 to R69). -/
def Opcode.format (op : Opcode) : Format :=
  match op with
  | .halt | .illegalOpcode => .z
  | .jump | .jumpForward | .jumpIfEqual => .r
  | .load => .di
  | .add | .sub | .mul | .div => .abd
  | .equal | .notEqual | .greaterThan | .lessThan | .greaterOrEqual | .lessOrEqual => .abx

/-- Bytes consumed by a format, the opcode byte among them (R65 to R69, R72). -/
def Format.length (f : Format) : Nat :=
  match f with
  | .z => 1
  | .r => 2
  | .di | .abd | .abx => 4

/-- The longest instruction, in bytes (R64). -/
def maxInstrLength : Nat := 4

/-- `imm_hi ++ imm_lo`, high byte first (R71, 20_memory.md R42). -/
def bigEndian16 (hi lo : Byte) : BitVec 16 := hi ++ lo

/-- Format R: one operand byte (R66). -/
def decodeR (op : Opcode) (mk : Byte → Instr) (operands : List Byte) : DecodeResult :=
  match operands with
  | r :: _ => .ok (mk r)
  | [] => .operandMissing op 1

/-- Format DI: the destination index, then the immediate high byte first (R67). -/
def decodeDI (op : Opcode) (mk : Byte → BitVec 16 → Instr) (operands : List Byte) : DecodeResult :=
  match operands with
  | d :: hi :: lo :: _ => .ok (mk d (bigEndian16 hi lo))
  | _ => .operandMissing op (operands.length + 1)

/-- Formats ABD and ABX: three operand bytes in order (R68, R69). -/
def decodeThree (op : Opcode) (mk : Byte → Byte → Byte → Instr) (operands : List Byte) : DecodeResult :=
  match operands with
  | x :: y :: z :: _ => .ok (mk x y z)
  | _ => .operandMissing op (operands.length + 1)

/-- The instruction at the head of a list of bytes; bytes past its format are not looked at (R64 to R74). -/
def decode (bytes : List Byte) : DecodeResult :=
  match bytes with
  | [] => .noOpcodeByte
  | b :: operands =>
    match decodeOpcode b with
    | .halt => .ok .halt
    | .load => decodeDI .load .load operands
    | .add => decodeThree .add .add operands
    | .sub => decodeThree .sub .sub operands
    | .mul => decodeThree .mul .mul operands
    | .div => decodeThree .div .div operands
    | .jump => decodeR .jump .jump operands
    | .jumpForward => decodeR .jumpForward .jumpForward operands
    | .equal => decodeThree .equal .equal operands
    | .notEqual => decodeThree .notEqual .notEqual operands
    | .greaterThan => decodeThree .greaterThan .greaterThan operands
    | .lessThan => decodeThree .lessThan .lessThan operands
    | .greaterOrEqual => decodeThree .greaterOrEqual .greaterOrEqual operands
    | .lessOrEqual => decodeThree .lessOrEqual .lessOrEqual operands
    | .jumpIfEqual => decodeR .jumpIfEqual .jumpIfEqual operands
    | .illegalOpcode => .ok (.illegalOpcode b)

/-- The bytes of an instruction: its opcode byte, then its fields as whole bytes in the order of its format (R80). -/
def encode (i : Instr) : List Byte :=
  match i with
  | .halt => [0]
  | .load d imm => [1, d, imm.extractLsb' 8 8, imm.extractLsb' 0 8]
  | .add a b d => [2, a, b, d]
  | .sub a b d => [3, a, b, d]
  | .mul a b d => [4, a, b, d]
  | .div a b d => [5, a, b, d]
  | .jump r => [6, r]
  | .jumpForward r => [7, r]
  | .equal a b pad => [8, a, b, pad]
  | .notEqual a b pad => [9, a, b, pad]
  | .greaterThan a b pad => [10, a, b, pad]
  | .lessThan a b pad => [11, a, b, pad]
  | .greaterOrEqual a b pad => [12, a, b, pad]
  | .lessOrEqual a b pad => [13, a, b, pad]
  | .jumpIfEqual r => [14, r]
  | .illegalOpcode op => [op]

/-- The opcode an instruction is an instruction of (R60). -/
def Instr.opcode (i : Instr) : Opcode :=
  match i with
  | .halt => .halt
  | .load _ _ => .load
  | .add _ _ _ => .add
  | .sub _ _ _ => .sub
  | .mul _ _ _ => .mul
  | .div _ _ _ => .div
  | .jump _ => .jump
  | .jumpForward _ => .jumpForward
  | .equal _ _ _ => .equal
  | .notEqual _ _ _ => .notEqual
  | .greaterThan _ _ _ => .greaterThan
  | .lessThan _ _ _ => .lessThan
  | .greaterOrEqual _ _ _ => .greaterOrEqual
  | .lessOrEqual _ _ _ => .lessOrEqual
  | .jumpIfEqual _ => .jumpIfEqual
  | .illegalOpcode _ => .illegalOpcode

/-- Bytes an instruction consumes (R61, R72). -/
def Instr.length (i : Instr) : Nat := i.opcode.format.length

/-- The `maxInstrLength` bytes of a table word: byte k is bits 8k+7 to 8k, and the bits from `nbits` up are 0
(the numbering of opcode_table.json, byte 0 first, R77). -/
def tableBytes (nbits w : Nat) : List Byte :=
  (List.range maxInstrLength).map fun k => BitVec.ofNat 8 (w % 2 ^ nbits / 2 ^ (8 * k))

/-- The instruction the decoder reads from a word of the opcode table. -/
def decodeTableWord (nbits w : Nat) : Option Instr :=
  match decode (tableBytes nbits w) with
  | .ok i => some i
  | .noOpcodeByte | .operandMissing _ _ => none

end Sys2Proof
end

