-- ==== Sys2Proof/Config.lean ====
section
/-!
DEFINITION. The parameters of the machine (00_scope.md R5, R6; 92_eei_decisions.md, parameter summary).
Each mode is an argument of the operation that depends on it; the constants below are the values the spec takes.
-/

namespace Sys2Proof

/-- `OVERFLOW_MODE`: what Add, Sub, Mul do with a result that does not fit (decision D4). -/
inductive OverflowMode where
  | wrap
  | fault
deriving DecidableEq, Repr

/-- `DIV_OVERFLOW_MODE`: what Div does with -2^31 / -1 (decision D6). -/
inductive DivOverflowMode where
  | fault
  | wrap
deriving DecidableEq, Repr

/-- `DIAG`: whether the diagnostic events are emitted (decision D13). -/
inductive DiagMode where
  | on
  | off
deriving DecidableEq, Repr

/-- `PROG_MAX`, the longest program LoadProgram accepts, in bytes (R6, decision D3). -/
def Config.progMax : Nat := 2147483648

/-- The value the spec takes for `OVERFLOW_MODE` (R6, decision D4, log 8). -/
def Config.overflowMode : OverflowMode := .wrap

/-- The value the spec takes for `DIV_OVERFLOW_MODE` (R6, decision D6, log 10). -/
def Config.divOverflowMode : DivOverflowMode := .fault

/-- The value the spec takes for `DIAG` (R6, decision D13, log 7). -/
def Config.diagMode : DiagMode := .on

/-- DESIGN CHOICE (log 1): what an offset below N that the list of cells does not name reads as. -/
def Config.unlistedByte : Byte := 0

end Sys2Proof
end

