-- ==== Sys2Proof/Machine/State.lean ====
section
/-!
DEFINITION. The state of the machine, its reset value, and the reasons a step or a host operation can stop
(10_state.md; 60_exceptions.md R171; 70_reset_and_hazards.md R216).
-/

namespace Sys2Proof.Machine

/-- The bytes of the program buffer that differ from `Config.unlistedByte`, by rising offset (log 1). -/
abbrev Memory := List Host.Cell

/-- A fault `F(info)`: the cause and what it records (60_exceptions.md R171). -/
inductive Cause where
  /-- R172: an index byte of 32 or more; info is the byte. -/
  | registerIndexOutOfRange (index : Byte)
  /-- R173: an operand byte at or beyond N; info is its offset. -/
  | fetchOverrun (offset : Word)
  /-- R174: Div with a zero divisor; info is the divisor's index. -/
  | divideByZero (divisor : Byte)
  /-- R177: Div of -2^31 by -1 under `DIV_OVERFLOW_MODE = fault`; info is the divisor's index. -/
  | divideOverflow (divisor : Byte)
  /-- R193: Add, Sub, Mul out of range under `OVERFLOW_MODE = fault`; info is the opcode byte. -/
  | arithmeticOverflow (opcodeByte : Byte)
deriving DecidableEq, Repr

/-- The run status (10_state.md R29). `faultPc` is the `at` of `Faulted(cause, info, at)`. -/
inductive Status where
  | running
  | halted
  | faulted (cause : Cause) (faultPc : Word)
deriving DecidableEq, Repr

/-- The diagnostic events (70_reset_and_hazards.md R216). -/
inductive DiagEvent where
  /-- `HaltEvent(a)`. -/
  | halt (offset : Word)
  /-- `IllegalOpcodeEvent(a, byte)`. -/
  | illegalOpcode (offset : Word) (byte : Byte)
  /-- `LoadEvent(imm)` (42_load.md R111). -/
  | load (imm : BitVec 16)
deriving DecidableEq, Repr

/-- Everything the spec gives the machine (00_scope.md R14; 10_state.md R20 to R36). -/
structure State where
  /-- x[0] to x[31] (R20). -/
  regs : Vector Word 32
  /-- The program counter (R24). -/
  pc : Word
  /-- The remainder register (R27). -/
  rem : Word
  /-- The comparison flag (R28). -/
  flag : Bool
  /-- The run status (R29). -/
  status : Status
  /-- The bytes of the program buffer (R32; form: log 1). -/
  prog : Memory
  /-- N, the length of the program buffer in bytes (R32). -/
  progLen : Nat
  /-- The diagnostic stream, oldest event first (70_reset_and_hazards.md R216; log 7). -/
  diag : List DiagEvent
deriving DecidableEq, Repr

/-- The state after reset, "Construct" (10_state.md R34; 70_reset_and_hazards.md R200, R206). -/
def State.reset : State where
  regs := Vector.replicate 32 0
  pc := 0
  rem := 0
  flag := false
  status := .running
  prog := []
  progLen := 0
  diag := []

/-- The reasons a step stops outside the machine's own state: there is none.
"No behaviour of this machine is treated as `stuck`: `Step` is total over every state" (93_implementation_defined.md).
A fault of the spec is a next state whose status is `faulted` (60_exceptions.md R176; log 3). -/
inductive Fault
deriving DecidableEq, Repr

/-- The reasons something is refused. No instruction's meaning answers with one of these. -/
inductive Refusal where
  /-- Raised by exec's arm of an instruction without a meaning; no arm raises it now. Safe. -/
  | notModelled (mnemonic : String)
  /-- Raised by the host operation LoadProgram in `Faulted` (10_state.md R35, decision D20). Safe: the spec refuses it. -/
  | loadProgramInFaulted
  /-- Raised by the host operation LoadProgram for more than PROG_MAX bytes (R35, decision D3). Safe: the spec refuses it. -/
  | loadProgramTooLong
  /-- Raised by the host operation Poke in `Faulted` (60_exceptions.md R191, decision D16). Safe: the spec refuses it. -/
  | pokeInFaulted
deriving DecidableEq, Repr

end Sys2Proof.Machine
end

