-- ==== Sys2Proof/Machine/Ops.lean ====
section
/-!
DEFINITION. The shared operations over the program buffer, the registers, the status and the diagnostic stream:
the fetch unit, the report of a step, and taking a fault (40_step_and_dispatch.md; 60_exceptions.md R176).
-/

namespace Sys2Proof.Machine

/-! ### The list of cells behind the program buffer (log 1) -/

/-- The byte at an offset: the listed one, or `Config.unlistedByte`. -/
def Memory.read (m : Memory) (k : Nat) : Byte :=
  match m with
  | [] => Config.unlistedByte
  | (a, b) :: rest => if a = k then b else Memory.read rest k

/-- Put byte `v` at offset `k`, keeping the list sorted and free of `Config.unlistedByte`. -/
def Memory.write (m : Memory) (k : Nat) (v : Byte) : Memory :=
  match m with
  | [] => if v = Config.unlistedByte then [] else [(k, v)]
  | (a, b) :: rest =>
    if k < a then
      if v = Config.unlistedByte then (a, b) :: rest else (k, v) :: (a, b) :: rest
    else if k = a then
      if v = Config.unlistedByte then rest else (k, v) :: rest
    else (a, b) :: Memory.write rest k v

/-- Offsets rise strictly from `lo` on, and no cell holds `Config.unlistedByte`. -/
def Memory.wfFrom (lo : Nat) (m : Memory) : Bool :=
  match m with
  | [] => true
  | (a, b) :: rest => decide (lo ≤ a) && (b != Config.unlistedByte) && Memory.wfFrom (a + 1) rest

/-- The canonical form of the list of cells. -/
def Memory.wf (m : Memory) : Bool := Memory.wfFrom 0 m

/-- Every listed offset lies below `n`. -/
def Memory.below (n : Nat) (m : Memory) : Bool := m.all fun c => decide (c.1 < n)

/-- The cells of a list of bytes laid out from offset `k` on. -/
def Memory.ofBytes (k : Nat) (bytes : List Byte) : Memory :=
  match bytes with
  | [] => []
  | b :: rest =>
    if b = Config.unlistedByte then Memory.ofBytes (k + 1) rest else (k, b) :: Memory.ofBytes (k + 1) rest

/-- `MemRead(addr, 1)`: the byte at an offset below N; no value at or beyond N (00_scope.md R9; 20_memory.md R45, R46). -/
def State.progByte (s : State) (k : Nat) : Option Byte :=
  if k < s.progLen then some (s.prog.read k) else none

/-- Replace the program buffer and N (10_state.md R32, R35). -/
def State.setProgram (s : State) (m : Memory) (n : Nat) : State := { s with prog := m, progLen := n }

/-- Put bytes at `pc`, `pc + 1`, ..., making N reach past them: a test bench's load, no operation of the hardware (log 2). -/
def State.placeBytes (s : State) (pc : Word) (bytes : List Byte) : State :=
  match bytes with
  | [] => s
  | b :: rest => State.placeBytes (s.setProgram (s.prog.write pc.toNat b) (max s.progLen (pc.toNat + 1))) (pc + 1) rest

/-! ### Registers and scalar state -/

/-- `x[i]`, as a 32-bit pattern (00_scope.md R9). -/
def State.readReg (s : State) (r : Fin 32) : Word := s.regs[r.val]

/-- `x[i] <- v` (00_scope.md R9); no register is hardwired (10_state.md R21). -/
def State.writeReg (s : State) (r : Fin 32) (v : Word) : State := { s with regs := s.regs.set r.val v r.isLt }

/-- `pc <- target` (00_scope.md R9). -/
def State.setPc (s : State) (v : Word) : State := { s with pc := v }

/-- `rem <- v` (00_scope.md R9). -/
def State.setRem (s : State) (v : Word) : State := { s with rem := v }

/-- `flag <- b` (00_scope.md R9). -/
def State.setFlag (s : State) (b : Bool) : State := { s with flag := b }

/-- `status <- v` (00_scope.md R9). -/
def State.setStatus (s : State) (v : Status) : State := { s with status := v }

/-- `emit e` under a setting of DIAG (00_scope.md R9; 70_reset_and_hazards.md R216). -/
def emitWith (mode : DiagMode) (e : DiagEvent) (s : State) : State :=
  match mode with
  | .on => { s with diag := s.diag ++ [e] }
  | .off => s

/-- `emit e` under the machine's own setting of DIAG. -/
def State.emit (s : State) (e : DiagEvent) : State := emitWith Config.diagMode e s

/-! ### The fetch unit -/

/-- `Fetch8()` with the program counter at `pc`: the byte there, and the counter one on
(40_step_and_dispatch.md R90). -/
def fetch8 (s : State) (pc : Word) : Except Cause (Byte × Word) :=
  match s.progByte pc.toNat with
  | none => .error (.fetchOverrun pc)
  | some b => .ok (b, pc + 1)

/-- The bytes `Fetch8` gives from `pc` on, at most `n` of them, up to the first that is missing (log 17). -/
def fetchWindow (n : Nat) (s : State) (pc : Word) : List Byte :=
  match n with
  | 0 => []
  | n + 1 =>
    match fetch8 s pc with
    | .error _ => []
    | .ok (b, pc') => b :: fetchWindow n s pc'

/-- The instruction at `pc`, or the fault of its first missing byte (20_memory.md R54; 60_exceptions.md R173). -/
def fetchInstr (s : State) : Except Cause Instr :=
  match decode (fetchWindow maxInstrLength s s.pc) with
  | .ok i => .ok i
  | .noOpcodeByte => .error (.fetchOverrun s.pc)
  | .operandMissing _ available => .error (.fetchOverrun (s.pc + BitVec.ofNat 32 available))

/-! ### How a step ends -/

/-- `report continue` with the program counter at `pc`: Step sets `status <- Running` (40_step_and_dispatch.md R93, R94). -/
def State.continueAt (s : State) (pc : Word) : State := (s.setPc pc).setStatus .running

/-- `report stop` by Halt with the program counter at `pc`: Step sets `status <- Halted` (R93, R94; 41_halt.md R105). -/
def State.haltAt (s : State) (pc : Word) : State := (s.setPc pc).setStatus .halted

/-- What the step that led to this state reported: `true` = continue, `false` = stop (R94; log 4). -/
def State.report (s : State) : Bool := decide (s.status = .running)

/-- `status is Faulted` (R94, R101). -/
def State.isFaulted (s : State) : Bool :=
  match s.status with
  | .running | .halted => false
  | .faulted _ _ => true

/-- The exhaustion test `pc >= N` (R94). -/
def State.exhausted (s : State) : Bool := decide (s.progLen ≤ s.pc.toNat)

/-- A step that finds the program counter at or beyond N changes nothing but `status` (R94). -/
def stopExhausted (s : State) : State := s.setStatus .halted

/-- Taking a fault: `raise F(info)` inside a step that began in `s`.
Nothing the step wrote is kept, `pc` stays at the opcode byte, `status` records cause, info and offset
(60_exceptions.md R176). There is no way back but Reset (R180). -/
def raise (c : Cause) (s : State) : State := s.setStatus (.faulted c s.pc)

/-- The end of a body that began in `s`: its own next state, or the fault it raised (00_scope.md R9, R176). -/
def finish (s : State) (body : Except Cause State) : Host.Outcome State Fault Refusal :=
  match body with
  | .ok t => .next t
  | .error c => .next (raise c s)

/-- The code of a fault (60_exceptions.md R171, decision D8). -/
def Cause.code (c : Cause) : Nat :=
  match c with
  | .registerIndexOutOfRange _ => 2
  | .fetchOverrun _ => 3
  | .divideByZero _ => 4
  | .divideOverflow _ => 5
  | .arithmeticOverflow _ => 6

/-- The `info` a fault records (R171). -/
def Cause.info (c : Cause) : Nat :=
  match c with
  | .registerIndexOutOfRange i => i.toNat
  | .fetchOverrun o => o.toNat
  | .divideByZero b => b.toNat
  | .divideOverflow b => b.toNat
  | .arithmeticOverflow op => op.toNat

end Sys2Proof.Machine
end

