-- ==== Sys2Proof/Machine/Operands.lean ====
section
/-!
DEFINITION. Operand forms (30_encoding.md R65 to R71) and the integer arithmetic of the ALU
(00_scope.md R10; 43_arithmetic.md R120 to R124).
-/

namespace Sys2Proof.Machine

/-! ### Register index fields -/

/-- The register an index byte selects; 32 to 255 select nothing and fault
(10_state.md R22; 60_exceptions.md R172). The index is not masked. -/
def regIndex (i : Byte) : Except Cause (Fin 32) :=
  if h : i.toNat < 32 then .ok ⟨i.toNat, h⟩ else .error (.registerIndexOutOfRange i)

/-- The registers of a format ABD, checked in the order a, b, d (43_arithmetic.md R115; 60_exceptions.md R178). -/
def regsABD (a b d : Byte) : Except Cause (Fin 32 × Fin 32 × Fin 32) :=
  match regIndex a with
  | .error c => .error c
  | .ok ra =>
    match regIndex b with
    | .error c => .error c
    | .ok rb =>
      match regIndex d with
      | .error c => .error c
      | .ok rd => .ok (ra, rb, rd)

/-- The registers of a format ABX, checked in the order a, b (45_comparison.md R140). -/
def regsABX (a b : Byte) : Except Cause (Fin 32 × Fin 32) :=
  match regIndex a with
  | .error c => .error c
  | .ok ra =>
    match regIndex b with
    | .error c => .error c
    | .ok rb => .ok (ra, rb)

/-- The register index fields of an instruction, in the order its format lists them (60_exceptions.md R178).
The pad byte of a comparison is none (R172). -/
def indexFields (i : Instr) : List Byte :=
  match i with
  | .halt | .illegalOpcode _ => []
  | .load d _ => [d]
  | .add a b d | .sub a b d | .mul a b d | .div a b d => [a, b, d]
  | .jump r | .jumpForward r | .jumpIfEqual r => [r]
  | .equal a b _ | .notEqual a b _ | .greaterThan a b _ | .lessThan a b _ | .greaterOrEqual a b _
  | .lessOrEqual a b _ => [a, b]

/-- The first index field that selects no register, if there is one (10_state.md R22, R178). -/
def firstBadIndex (i : Instr) : Option Byte := (indexFields i).find? fun b => decide (32 ≤ b.toNat)

/-- The register an instruction writes, where its index selects one (10_state.md R21). -/
def destReg (i : Instr) : Option (Fin 32) :=
  match i with
  | .load d _ | .add _ _ d | .sub _ _ d | .mul _ _ d | .div _ _ d => (regIndex d).toOption
  | .halt | .illegalOpcode _ | .jump _ | .jumpForward _ | .jumpIfEqual _ | .equal _ _ _ | .notEqual _ _ _
  | .greaterThan _ _ _ | .lessThan _ _ _ | .greaterOrEqual _ _ _ | .lessOrEqual _ _ _ => none

/-! ### The immediate -/

/-- `zext_16(imm)` in a register (30_encoding.md R71). -/
def zext16 (imm : BitVec 16) : Word := imm.setWidth 32

/-! ### Integer arithmetic -/

/-- `tdiv(n, d)`: the quotient rounded toward zero (00_scope.md R10). -/
def tdiv (n d : Int) : Int := n.tdiv d

/-- `trem(n, d) = n - d * tdiv(n, d)` (00_scope.md R10). -/
def trem (n d : Int) : Int := n - d * tdiv n d

/-- What an arithmetic body writes: the result, and the new remainder where it writes one (43_arithmetic.md R126). -/
structure AluResult where
  value : Word
  rem : Option Word
deriving DecidableEq, Repr

/-- Bring a true result to 32 bits under a setting of OVERFLOW_MODE (43_arithmetic.md R120; 60_exceptions.md R193). -/
def narrow (mode : OverflowMode) (opcodeByte : Byte) (v : Int) : Except Cause AluResult :=
  match mode with
  | .wrap => .ok ⟨u32 v, none⟩
  | .fault => if wrap32 v = v then .ok ⟨u32 v, none⟩ else .error (.arithmeticOverflow opcodeByte)

/-- The ALU operation of Add (43_arithmetic.md R116). -/
def aluAdd (mode : OverflowMode) (va vb : Int) : Except Cause AluResult := narrow mode 2 (va + vb)

/-- The ALU operation of Sub, A the minuend (R117). -/
def aluSub (mode : OverflowMode) (va vb : Int) : Except Cause AluResult := narrow mode 3 (va - vb)

/-- The ALU operation of Mul, on the signed values (R118). -/
def aluMul (mode : OverflowMode) (va vb : Int) : Except Cause AluResult := narrow mode 4 (va * vb)

/-- The ALU operation of Div; `b` is the divisor's index, which a fault records (R119, R121 to R124). -/
def aluDiv (mode : DivOverflowMode) (b : Byte) (va vb : Int) : Except Cause AluResult :=
  if vb = 0 then .error (.divideByZero b)
  else if va = -2147483648 ∧ vb = -1 then
    match mode with
    | .fault => .error (.divideOverflow b)
    | .wrap => .ok ⟨u32 (-2147483648), some 0⟩
  else .ok ⟨u32 (tdiv va vb), some (u32 (trem va vb))⟩

/-- Write what the ALU gave: `x[d]`, and `rem` where there is one (43_arithmetic.md R115). -/
def State.writeAlu (s : State) (d : Fin 32) (out : AluResult) : State :=
  match out.rem with
  | none => s.writeReg d out.value
  | some r => (s.writeReg d out.value).setRem r

/-- The common part of Add, Sub, Mul, Div: index checks, then the old values, then the ALU, then the writes
(43_arithmetic.md R115, R125). -/
def arithBody (op : Int → Int → Except Cause AluResult) (a b d : Byte) (s : State) : Except Cause State :=
  match regsABD a b d with
  | .error c => .error c
  | .ok (ra, rb, rd) =>
    match op (s32 (s.readReg ra)) (s32 (s.readReg rb)) with
    | .error c => .error c
    | .ok out => .ok ((s.writeAlu rd out).continueAt (s.pc + 4))

/-! ### Jump targets -/

/-- The register operand of format R as a 32-bit pattern (30_encoding.md R66; 44_jump.md R130). -/
def readOperandR (r : Byte) (s : State) : Except Cause Word :=
  match regIndex r with
  | .error c => .error c
  | .ok rr => .ok (s.readReg rr)

/-- `(pc + v) mod 2^32`, the signed value added as it is (44_jump.md R131, R134). -/
def pcPlus (pc : Word) (v : Int) : Word := u32 ((pc.toNat : Int) + v)

end Sys2Proof.Machine
end

