-- ==== Sys2Proof/Machine/Arithmetic.lean ====
section
/-!
DEFINITION. Add, Sub, Mul, Div (43_arithmetic.md).
-/

namespace Sys2Proof.Machine

/-- Add: `x[d] <- wrap32(x[a] + x[b])` (R116). -/
def execAdd (a b d : Byte) (s : State) : Host.Outcome State Fault Refusal :=
  finish s (arithBody (aluAdd Config.overflowMode) a b d s)

/-- Sub: `x[d] <- wrap32(x[a] - x[b])` (R117). -/
def execSub (a b d : Byte) (s : State) : Host.Outcome State Fault Refusal :=
  finish s (arithBody (aluSub Config.overflowMode) a b d s)

/-- Mul: `x[d] <- wrap32(x[a] * x[b])` (R118). -/
def execMul (a b d : Byte) (s : State) : Host.Outcome State Fault Refusal :=
  finish s (arithBody (aluMul Config.overflowMode) a b d s)

/-- Div: `x[d] <- tdiv(x[a], x[b])`, `rem <- u32(trem(x[a], x[b]))` (R119). -/
def execDiv (a b d : Byte) (s : State) : Host.Outcome State Fault Refusal :=
  finish s (arithBody (aluDiv Config.divOverflowMode b) a b d s)

end Sys2Proof.Machine
end

