-- ==== Sys2Proof/Machine/Flags.lean ====
section
/-!
DEFINITION. The comparison flag, the only condition code of the machine (10_state.md R28; 45_comparison.md R140 to R146).
-/

namespace Sys2Proof.Machine

/-- The relation of Equal (R141). -/
def relEqual (va vb : Int) : Bool := decide (va = vb)

/-- The relation of NotEqual (R142). -/
def relNotEqual (va vb : Int) : Bool := decide (va ≠ vb)

/-- The relation of GreaterThan (R143). -/
def relGreaterThan (va vb : Int) : Bool := decide (va > vb)

/-- The relation of LessThan (R144). -/
def relLessThan (va vb : Int) : Bool := decide (va < vb)

/-- The relation of GreaterOrEqual (R145). -/
def relGreaterOrEqual (va vb : Int) : Bool := decide (va ≥ vb)

/-- The relation of LessOrEqual (R146). -/
def relLessOrEqual (va vb : Int) : Bool := decide (va ≤ vb)

/-- The common part of the six comparisons: the flag is always written, from the signed values (R140).
The pad byte is no argument: it is consumed by the fetch and never looked at (R69). -/
def compareBody (rel : Int → Int → Bool) (a b : Byte) (s : State) : Except Cause State :=
  match regsABX a b with
  | .error c => .error c
  | .ok (ra, rb) => .ok ((s.setFlag (rel (s32 (s.readReg ra)) (s32 (s.readReg rb)))).continueAt (s.pc + 4))

end Sys2Proof.Machine
end

