-- ==== Sys2Proof/Machine/Comparison.lean ====
section
/-!
DEFINITION. The six comparisons (45_comparison.md).
-/

namespace Sys2Proof.Machine

/-- Equal (R141). -/
def execEqual (a b : Byte) (s : State) : Host.Outcome State Fault Refusal :=
  finish s (compareBody relEqual a b s)

/-- NotEqual (R142). -/
def execNotEqual (a b : Byte) (s : State) : Host.Outcome State Fault Refusal :=
  finish s (compareBody relNotEqual a b s)

/-- GreaterThan, signed (R143). -/
def execGreaterThan (a b : Byte) (s : State) : Host.Outcome State Fault Refusal :=
  finish s (compareBody relGreaterThan a b s)

/-- LessThan, signed (R144). -/
def execLessThan (a b : Byte) (s : State) : Host.Outcome State Fault Refusal :=
  finish s (compareBody relLessThan a b s)

/-- GreaterOrEqual, signed (R145). -/
def execGreaterOrEqual (a b : Byte) (s : State) : Host.Outcome State Fault Refusal :=
  finish s (compareBody relGreaterOrEqual a b s)

/-- LessOrEqual, signed (R146). -/
def execLessOrEqual (a b : Byte) (s : State) : Host.Outcome State Fault Refusal :=
  finish s (compareBody relLessOrEqual a b s)

end Sys2Proof.Machine
end

