-- ==== Sys2Proof/Machine/Jump.lean ====
section
/-!
DEFINITION. Jump, JumpForward and JumpIfEqual (44_jump.md; 46_conditional_jump.md).
Targets are not checked (44_jump.md R132).
-/

namespace Sys2Proof.Machine

/-- Jump: `pc <- u32(x[r])`, the register's bit pattern (R130, R134). -/
def execJump (r : Byte) (s : State) : Host.Outcome State Fault Refusal :=
  finish s ((readOperandR r s).map fun v => s.continueAt v)

/-- JumpForward: `pc <- (a + 2 + x[r]) mod 2^32`, the register read as signed (R131, R134). -/
def execJumpForward (r : Byte) (s : State) : Host.Outcome State Fault Refusal :=
  finish s ((readOperandR r s).map fun v => s.continueAt (pcPlus (s.pc + 2) (s32 v)))

/-- JumpIfEqual: the index is checked whether or not the jump is taken; the flag is read and not changed
(46_conditional_jump.md R155, R156). -/
def execJumpIfEqual (r : Byte) (s : State) : Host.Outcome State Fault Refusal :=
  finish s ((readOperandR r s).map fun v => s.continueAt (if s.flag then v else s.pc + 2))

end Sys2Proof.Machine
end

