-- ==== Sys2Proof/Machine/LoadImmediate.lean ====
section
/-!
DEFINITION. Load, the load-immediate (42_load.md).
-/

namespace Sys2Proof.Machine

/-- Load: the zero-extended immediate into `x[d]`, one event (42_load.md R110, R111). -/
def loadBody (d : Byte) (imm : BitVec 16) (s : State) : Except Cause State :=
  match regIndex d with
  | .error c => .error c
  | .ok rd => .ok (((s.writeReg rd (zext16 imm)).emit (.load imm)).continueAt (s.pc + 4))

/-- Load (R110). -/
def execLoad (d : Byte) (imm : BitVec 16) (s : State) : Host.Outcome State Fault Refusal :=
  finish s (loadBody d imm s)

end Sys2Proof.Machine
end

