-- ==== Sys2Proof/Machine/System.lean ====
section
/-!
DEFINITION. Halt and IllegalOpcode (41_halt.md; 47_illegal.md).
-/

namespace Sys2Proof.Machine

/-- Halt: the counter moves past the opcode byte, one event, report stop (41_halt.md R105). -/
def execHalt (s : State) : Host.Outcome State Fault Refusal :=
  .next ((s.emit (.halt s.pc)).haltAt (s.pc + 1))

/-- IllegalOpcode: skips one byte and logs it; no fault (47_illegal.md R160, R161). -/
def execIllegalOpcode (op : Byte) (s : State) : Host.Outcome State Fault Refusal :=
  .next ((s.emit (.illegalOpcode s.pc op)).continueAt (s.pc + 1))

end Sys2Proof.Machine
end

