-- ==== Sys2Proof/Machine/Dispatch.lean ====
section
/-!
DEFINITION. The dispatcher: one arm per instruction, each one call of its meaning (40_step_and_dispatch.md R93).
A meaning is given the state in which the step began, with `pc` at the opcode byte (log 18).
-/

namespace Sys2Proof.Machine

def exec (i : Instr) (s : State) : Host.Outcome State Fault Refusal :=
  match i with
  | .halt => Sys2Proof.Machine.execHalt s
  | .load d imm => Sys2Proof.Machine.execLoad d imm s
  | .add a b d => Sys2Proof.Machine.execAdd a b d s
  | .sub a b d => Sys2Proof.Machine.execSub a b d s
  | .mul a b d => Sys2Proof.Machine.execMul a b d s
  | .div a b d => Sys2Proof.Machine.execDiv a b d s
  | .jump r => Sys2Proof.Machine.execJump r s
  | .jumpForward r => Sys2Proof.Machine.execJumpForward r s
  -- the third operand byte of a comparison is discarded (45_comparison.md R140)
  | .equal a b _ => Sys2Proof.Machine.execEqual a b s
  | .notEqual a b _ => Sys2Proof.Machine.execNotEqual a b s
  | .greaterThan a b _ => Sys2Proof.Machine.execGreaterThan a b s
  | .lessThan a b _ => Sys2Proof.Machine.execLessThan a b s
  | .greaterOrEqual a b _ => Sys2Proof.Machine.execGreaterOrEqual a b s
  | .lessOrEqual a b _ => Sys2Proof.Machine.execLessOrEqual a b s
  | .jumpIfEqual r => Sys2Proof.Machine.execJumpIfEqual r s
  | .illegalOpcode op => Sys2Proof.Machine.execIllegalOpcode op s

end Sys2Proof.Machine
end

