-- ==== Sys2Proof/Machine/Step.lean ====
section
/-!
DEFINITION. One step (40_step_and_dispatch.md R94, R101), and the word a test bench puts where the step fetches.
-/

namespace Sys2Proof.Machine

/-- `Step()`: nothing in `Faulted`; a stop at the end of the buffer; else fetch, decode and run one instruction
(R94, R99, R101). The boolean it reports is `State.report` of the next state (log 4). -/
def step (s : State) : Host.Outcome State Fault Refusal :=
  if s.isFaulted then .next s
  else if s.exhausted then .next (stopExhausted s)
  else
    match fetchInstr s with
    | .error c => .next (raise c s)
    | .ok i => exec i s

/-- `s` with the word of an opcode-table row in the program buffer at `pc`, N reaching past it, and a status in which
a step fetches. It stands for LoadProgram by a test bench; log 2 says how a program comes to run from reset. -/
def State.withFetchWord (s : State) (nbits w : Nat) : State :=
  if s.isFaulted then (s.placeBytes s.pc (tableBytes nbits w)).setStatus .running
  else s.placeBytes s.pc (tableBytes nbits w)

end Sys2Proof.Machine
end

