-- ==== Sys2Proof/Machine/HostOps.lean ====
section
/-!
DEFINITION. What the host can do between steps: Reset, LoadProgram, Step, Run, Peek, Poke
(60_exceptions.md R191; 10_state.md R35; 40_step_and_dispatch.md R95).
-/

namespace Sys2Proof.Machine

/-- `LoadProgram(bytes)`: refused in `Faulted` or beyond PROG_MAX; else the buffer, N and `Running`, and nothing else,
`pc` included (10_state.md R35; decisions D3, D20). -/
def loadProgram (bytes : List Byte) (s : State) : Host.Outcome State Fault Refusal :=
  if s.isFaulted then .refused .loadProgramInFaulted
  else if Config.progMax < bytes.length then .refused .loadProgramTooLong
  else .next ((s.setProgram (Memory.ofBytes 0 bytes) bytes.length).setStatus .running)

/-- What Poke can write (R191, decision D16). -/
inductive PokeTarget where
  | reg (r : Fin 32)
  | pc
deriving DecidableEq, Repr

/-- `Poke`: writes `x[i]` or `pc`; refused in `Faulted` (R191). -/
def poke (target : PokeTarget) (v : Word) (s : State) : Host.Outcome State Fault Refusal :=
  if s.isFaulted then .refused .pokeInFaulted
  else
    match target with
    | .reg r => .next (s.writeReg r v)
    | .pc => .next (s.setPc v)

/-- What Peek can read (R191). -/
inductive PeekTarget where
  | reg (r : Fin 32)
  | pc
  | rem
  | flag
  | status
  | length
  | byte (k : Nat)
deriving DecidableEq, Repr

/-- What Peek gives. A byte at or beyond N has no value. -/
inductive PeekValue where
  | word (v : Word)
  | bit (b : Bool)
  | status (v : Status)
  | length (n : Nat)
  | byte (b : Option Byte)
deriving DecidableEq, Repr

/-- `Peek`: the current value, in any status, with no effect (R191). -/
def peek (target : PeekTarget) (s : State) : PeekValue :=
  match target with
  | .reg r => .word (s.readReg r)
  | .pc => .word s.pc
  | .rem => .word s.rem
  | .flag => .bit s.flag
  | .status => .status s.status
  | .length => .length s.progLen
  | .byte k => .byte (s.progByte k)

/-- How a run under fuel comes out. -/
inductive RunResult where
  /-- A step reported stop; this is the final state (70_reset_and_hazards.md R214). -/
  | ended (s : State)
  /-- Every step so far reported continue. -/
  | unfinished (s : State)
deriving DecidableEq, Repr

/-- `Run()` under fuel: Step until a step reports stop (40_step_and_dispatch.md R95; 70_reset_and_hazards.md R218). -/
def run (fuel : Nat) (s : State) : RunResult :=
  match fuel with
  | 0 => .unfinished s
  | fuel + 1 =>
    match step s with
    | .next t => if t.report then run fuel t else .ended t
    | .fault _ | .refused _ => .ended s

/-- One act of the host. -/
inductive HostOp where
  | reset
  | loadProgram (bytes : List Byte)
  | step
  | poke (target : PokeTarget) (v : Word)
deriving DecidableEq, Repr

/-- An act of the host on the machine. Peek changes nothing and Run is repeated Step, so neither is listed. -/
def applyHostOp (op : HostOp) (s : State) : Host.Outcome State Fault Refusal :=
  match op with
  | .reset => .next State.reset
  | .loadProgram bytes => loadProgram bytes s
  | .step => step s
  | .poke target v => poke target v s

end Sys2Proof.Machine
end

