-- ==== Sys2Proof/Machine/Pseudocode.lean ====
section
/-!
DEFINITION. The pseudocode of the rule files, transcribed line by line, as a second reading of the machine to hold
`step` against. `step` does not use it.
A body works on a copy of the state; a raised fault throws the copy away (00_scope.md R9).
-/

namespace Sys2Proof.Machine.Pseudo

/-- A piece of pseudocode: it changes the working state and gives a value, or raises a fault. -/
abbrev Code := StateT State (Except Cause)

/-- `raise <Fault>(info)` (00_scope.md R9). -/
def raiseFault {α : Type} (c : Cause) : Code α := throw c

/-- `Fetch8()` (40_step_and_dispatch.md R90). -/
def Fetch8 : Code Byte := do
  let s ← get
  if s.progLen ≤ s.pc.toNat then raiseFault (.fetchOverrun s.pc)
  else
    set (s.setPc (s.pc + 1))
    return s.prog.read s.pc.toNat

/-- `Fetch16()`: `hi * 256 + lo` (R91). -/
def Fetch16 : Code (BitVec 16) := do
  let hi ← Fetch8
  let lo ← Fetch8
  return BitVec.ofNat 16 (hi.toNat * 256 + lo.toNat)

/-- `Reg(i)` (00_scope.md R9). -/
def Reg (i : Byte) : Code Int := do
  if h : i.toNat < 32 then return s32 ((← get).readReg ⟨i.toNat, h⟩)
  else raiseFault (.registerIndexOutOfRange i)

/-- `SetReg(i, v)` (00_scope.md R9). -/
def SetReg (i : Byte) (v : Int) : Code Unit := do
  if h : i.toNat < 32 then modify fun s => s.writeReg ⟨i.toNat, h⟩ (u32 v)
  else raiseFault (.registerIndexOutOfRange i)

/-- The common part of Add, Sub, Mul, Div (43_arithmetic.md R115). -/
def arith (op : Byte → Int → Int → Code Int) : Code Bool := do
  let a ← Fetch8
  let b ← Fetch8
  let d ← Fetch8
  let va ← Reg a
  let vb ← Reg b
  if 32 ≤ d.toNat then raiseFault (.registerIndexOutOfRange d)
  let result ← op b va vb
  SetReg d result
  return true

/-- `OP` of Div (43_arithmetic.md R119). -/
def opDiv (b : Byte) (va vb : Int) : Code Int := do
  if vb = 0 then raiseFault (.divideByZero b)
  if va = -2147483648 ∧ vb = -1 then raiseFault (.divideOverflow b)
  let q := tdiv va vb
  let r := trem va vb
  modify fun s => s.setRem (u32 r)
  return q

/-- The common part of the six comparisons (45_comparison.md R140). -/
def compare (rel : Int → Int → Prop) [DecidableRel rel] : Code Bool := do
  let a ← Fetch8
  let b ← Fetch8
  let _pad ← Fetch8
  let va ← Reg a
  let vb ← Reg b
  modify fun s => s.setFlag (decide (rel va vb))
  return true

/-- The sixteen bodies; `a` is the offset of the opcode byte (40_step_and_dispatch.md R93). -/
def Dispatch (op : Opcode) (a : Word) : Code Bool :=
  match op with
  | .halt => do
    modify fun s => s.emit (.halt a)
    return false
  | .load => do
    let d ← Fetch8
    let imm ← Fetch16
    SetReg d imm.toNat
    modify fun s => s.emit (.load imm)
    return true
  | .add => arith fun _ va vb => return wrap32 (va + vb)
  | .sub => arith fun _ va vb => return wrap32 (va - vb)
  | .mul => arith fun _ va vb => return wrap32 (va * vb)
  | .div => arith opDiv
  | .jump => do
    let r ← Fetch8
    let v ← Reg r
    modify fun s => s.setPc (u32 v)
    return true
  | .jumpForward => do
    let r ← Fetch8
    let v ← Reg r
    modify fun s => s.setPc (u32 ((s.pc.toNat : Int) + v))
    return true
  | .equal => compare fun va vb => va = vb
  | .notEqual => compare fun va vb => va ≠ vb
  | .greaterThan => compare fun va vb => va > vb
  | .lessThan => compare fun va vb => va < vb
  | .greaterOrEqual => compare fun va vb => va ≥ vb
  | .lessOrEqual => compare fun va vb => va ≤ vb
  | .jumpIfEqual => do
    let r ← Fetch8
    let v ← Reg r
    if (← get).flag = true then modify fun s => s.setPc (u32 v)
    return true
  | .illegalOpcode => do
    modify fun s => s.emit (.illegalOpcode a (s.prog.read a.toNat))
    return true

/-- `Step()` (40_step_and_dispatch.md R94) with `raise` (60_exceptions.md R176): the next state and the report. -/
def Step (s : State) : State × Bool :=
  match s.status with
  | .faulted _ _ => (s, false)
  | .running | .halted =>
    if s.progLen ≤ s.pc.toNat then (s.setStatus .halted, false)
    else
      let body : Code Bool := do
        let a := (← get).pc
        let b ← Fetch8
        Dispatch (decodeOpcode b) a
      match body.run s with
      | .error c => (s.setStatus (.faulted c s.pc), false)
      | .ok (r, t) => (t.setStatus (if r then .running else .halted), r)

end Sys2Proof.Machine.Pseudo
end

