-- ==== Sys2Proof/Safety.lean ====
section
/-!
DEFINITION. What counts as the end of a run, a safe run, and a legal state
(70_reset_and_hazards.md R214; 10_state.md R34, R35; 60_exceptions.md R176).
-/

namespace Sys2Proof.Machine

/-- A successful end: `status = Halted` (R214). -/
def State.succeeded (s : State) : Prop := s.status = .halted

/-- A failed end: `status = Faulted` (R214). -/
def State.failed (s : State) : Prop := s.isFaulted = true

/-- A run from `s` is safe when it never ends in a fault, however long it goes on. -/
def State.runsSafely (s : State) : Prop := ∀ fuel t, run fuel s = .ended t → t.succeeded

/-- What a recorded fault says about the state it was raised in, which `Faulted` keeps (R172 to R177, R193). -/
def Cause.explains (c : Cause) (s : State) : Prop :=
  match c with
  | .registerIndexOutOfRange i => 32 ≤ i.toNat
  | .fetchOverrun o => o.toNat = s.progLen
  | .divideByZero b => ∃ r, regIndex b = .ok r ∧ s32 (s.readReg r) = 0
  | .divideOverflow b => ∃ r, regIndex b = .ok r ∧ s32 (s.readReg r) = -1
  | .arithmeticOverflow _ => False

/-- The invariant of the machine.
The program buffer is in canonical form, lies below N, and N is at most PROG_MAX (00_scope.md R6).
A recorded fault points at the opcode byte where `pc` stands, inside the buffer, and the kept state shows its cause
(60_exceptions.md R176). -/
structure State.Inv (s : State) : Prop where
  canonical : s.prog.wf = true
  inside : Memory.below s.progLen s.prog = true
  bounded : s.progLen ≤ Config.progMax
  faultShown : ∀ c p, s.status = .faulted c p → p = s.pc ∧ s.pc.toNat < s.progLen ∧ c.explains s

/-- The states the host can bring the machine to from reset (R191). -/
inductive Reachable : State → Prop where
  | reset : Reachable State.reset
  | act {s t : State} (op : HostOp) : Reachable s → applyHostOp op s = .next t → Reachable t

end Sys2Proof.Machine
end

