-- ==== Sys2Proof/Certificates/Slice0/Obligations.lean ====
section
/-!
DEFINITION. The statements for the provers. OBLIGATIONS.json says of each whether it formalises a rule of the source
(`stated`) or rests on a decision or derivation of the spec or on a choice of the model (`derived`); a docstring names
the decision (D n of 92_eei_decisions.md) or log entry a statement rests on.
In a statement a register index byte `a` and the register `ra` it selects are tied by `a.toNat = ra.val`.
-/

open Sys2Proof Sys2Proof.Machine

/-! ### Reset -/

/-- R34: reset is the source's Construct, and every piece of state has the value its table states (the status latch and
the diagnostic stream among them, which the same table marks as the spec's own). -/
def Obligations.ResetLeavesTheStatedValues : Prop :=
  (∀ r, State.reset.readReg r = 0) ∧ State.reset.pc = 0 ∧ State.reset.rem = 0 ∧ State.reset.flag = false ∧
    State.reset.status = .running ∧ State.reset.progLen = 0 ∧ (∀ k, State.reset.progByte k = none) ∧
    State.reset.diag = []

/-- The invariant of the model holds after reset. Its canonical form of the buffer is the model's choice (log 1). -/
def Obligations.ResetSatisfiesTheInvariant : Prop := State.reset.Inv

/-- R96 (derived in the spec): with the empty buffer the first step stops, changing only `status`. -/
def Obligations.FirstStepAfterResetStops : Prop :=
  step State.reset = .next { State.reset with status := .halted }

/-! ### Encoding -/

/-- R61, R63: the byte table, with the format and the bytes consumed of each row, for every byte. -/
def Obligations.OpcodeByteTable : Prop :=
  ([0, 1, 2, 3, 4, 5, 6, 7, 8, 9, 10, 11, 12, 13, 14].map decodeOpcode =
      [.halt, .load, .add, .sub, .mul, .div, .jump, .jumpForward, .equal, .notEqual, .greaterThan, .lessThan,
        .greaterOrEqual, .lessOrEqual, .jumpIfEqual]) ∧
    (∀ b : Byte, 15 ≤ b.toNat → decodeOpcode b = .illegalOpcode) ∧
    ([0, 1, 2, 3, 4, 5, 6, 7, 8, 9, 10, 11, 12, 13, 14, 15].map fun b => (decodeOpcode b).format) =
      [.z, .di, .abd, .abd, .abd, .abd, .r, .r, .abx, .abx, .abx, .abx, .abx, .abx, .r, .z] ∧
    (∀ b : Byte, (decodeOpcode b).format.length =
      if b = 0 ∨ 15 ≤ b.toNat then 1 else if b = 6 ∨ b = 7 ∨ b = 14 then 2 else 4)

/-- Sanity: words written out from 30_encoding.md section 2 decode to the instructions they stand for. -/
def Obligations.SampleWordsDecode : Prop :=
  decode [0#8] = .ok .halt ∧
    decode [0b00000001#8, 0b00011111#8, 0b00000001#8, 0b11110100#8] = .ok (.load 31 500) ∧
    decode [0b00000011#8, 0b00000001#8, 0b00000010#8, 0b00000100#8] = .ok (.sub 1 2 4) ∧
    decode [0b00000111#8, 0b00010000#8, 0b11111111#8] = .ok (.jumpForward 16) ∧
    decode [0b00001101#8, 0b00001000#8, 0b00000100#8, 0b10000001#8] = .ok (.lessOrEqual 8 4 129) ∧
    decode [0b11001000#8, 0b00000000#8] = .ok (.illegalOpcode 200)

/-- 30_encoding.md section 6 (R80, derived in the spec): decoding the encoding of any well-formed instruction, whatever
bytes follow it, gives the instruction back, with every field at every value. -/
def Obligations.DecodeOfEncodeIsTheInstruction : Prop :=
  ∀ (i : Instr) (rest : List Byte), i.wellFormed = true → decode (encode i ++ rest) = .ok i

/-- The other direction: what the decoder answers is well formed, its encoding is the bytes that were read, and the
bytes past its length were not looked at. -/
def Obligations.EncodeOfDecodeIsTheBytesRead : Prop :=
  ∀ (bytes : List Byte) (i : Instr), decode bytes = .ok i →
    i.wellFormed = true ∧ i.length ≤ bytes.length ∧ encode i = bytes.take i.length ∧
      ∀ rest, decode (bytes.take i.length ++ rest) = .ok i

/-! ### The step -/

/-- R94: where the bytes at `pc` decode to `i`, the step is `exec i` at that very state, with nothing added. -/
def Obligations.StepRunsTheDecodedInstruction : Prop :=
  ∀ (s : State) (i : Instr), s.isFaulted = false → s.pc.toNat < s.progLen →
    decode (fetchWindow maxInstrLength s s.pc) = .ok i → step s = exec i s

/-- The same from the program buffer: where the buffer holds the encoding of a well-formed instruction from `pc` on,
the step runs that instruction. N is at most PROG_MAX (decision D3). -/
def Obligations.EncodedInstructionInTheBufferIsRun : Prop :=
  ∀ (s : State) (i : Instr), s.progLen ≤ Config.progMax → s.isFaulted = false → i.wellFormed = true →
    (∀ (k : Nat) (h : k < (encode i).length), s.progByte (s.pc.toNat + k) = some (encode i)[k]) →
    step s = exec i s

/-- 93_implementation_defined.md, end of part 2: "No behaviour of this machine is treated as `stuck`: `Step` is total
over every state". Every step has a next state: none is refused, and none ends outside the machine's own state. -/
def Obligations.StepIsTotal : Prop := ∀ s : State, ∃ t, step s = .next t

/-- R100: no step changes the program buffer or N; with the fields of State listed, what a step can change is the
register file, `pc`, `rem`, `flag`, the diagnostics and `status`. -/
def Obligations.StepNeverChangesTheProgram : Prop :=
  ∀ s t : State, step s = .next t →
    t.prog = s.prog ∧ t.progLen = s.progLen ∧ (∀ k, t.progByte k = s.progByte k) ∧
      t = { s with regs := t.regs, pc := t.pc, rem := t.rem, flag := t.flag, diag := t.diag, status := t.status }

/-- Decision D11 (40_step_and_dispatch.md section 4): a step in `Halted` behaves exactly as in `Running`. -/
def Obligations.StepInHaltedIsStepInRunning : Prop :=
  ∀ s : State, step { s with status := .halted } = step { s with status := .running }

/-- Decisions D7, D9, D15 and the pseudocode of every rule file: the model's step is the transcribed `Step()`, state and
report, in every state.
The model's own readings that it holds against the pseudocode: the report is read from the status the step leaves
(log 4), the fetch takes a window of bytes before it decodes (log 17), and a meaning is given the state with `pc` at
the opcode byte (log 18). -/
def Obligations.StepIsTheSpecsPseudocode : Prop :=
  ∀ s : State, step s = .next (Pseudo.Step s).1 ∧ (Pseudo.Step s).2 = (Pseudo.Step s).1.report

/-- Log 2: the word a test bench puts where the step fetches is the word the next step runs, and placing it changes
only the program buffer, and the status of a faulted machine. -/
def Obligations.PlacedWordIsTheOneTheStepRuns : Prop :=
  ∀ (s : State) (nbits w : Nat) (i : Instr), s.prog.wf = true → decodeTableWord nbits w = some i →
    step (s.withFetchWord nbits w) = exec i (s.withFetchWord nbits w) ∧
      (s.isFaulted = false →
        s.withFetchWord nbits w =
          { s with prog := (s.withFetchWord nbits w).prog, progLen := (s.withFetchWord nbits w).progLen })

/-! ### Results, instruction by instruction -/

/-- R105: Halt moves `pc` past its own byte, emits its event and reports stop, and changes nothing else; so does a step
at a byte 0, in `Running` as in `Halted`. -/
def Obligations.HaltStopsAfterItsByte : Prop :=
  ∀ s : State,
    exec .halt s = .next { s with pc := s.pc + 1, status := .halted, diag := s.diag ++ [.halt s.pc] } ∧
      (s.isFaulted = false → s.progByte s.pc.toNat = some 0 →
        step s = .next { s with pc := s.pc + 1, status := .halted, diag := s.diag ++ [.halt s.pc] })

/-- R160: IllegalOpcode moves `pc` by one byte, emits its event, reports continue, and changes nothing else; so does a
step at any byte of 15 or more. -/
def Obligations.IllegalOpcodeSkipsOneByte : Prop :=
  ∀ (s : State) (op : Byte), 15 ≤ op.toNat →
    exec (.illegalOpcode op) s =
        .next { s with pc := s.pc + 1, status := .running, diag := s.diag ++ [.illegalOpcode s.pc op] } ∧
      (s.isFaulted = false → s.progByte s.pc.toNat = some op →
        step s = .next { s with pc := s.pc + 1, status := .running, diag := s.diag ++ [.illegalOpcode s.pc op] })

/-- 42_load.md: Load with a legal index completes: the zero-extended immediate in `x[d]`, `pc` four on, its event
(decision D13), nothing else. -/
def Obligations.LoadCompletes : Prop :=
  ∀ (s : State) (d : Byte) (imm : BitVec 16) (rd : Fin 32), d.toNat = rd.val →
    exec (.load d imm) s =
      .next { s.writeReg rd (BitVec.ofNat 32 imm.toNat) with
        pc := s.pc + 4, status := .running, diag := s.diag ++ [.load imm] }

/-- R71: the value a step at a Load writes is `imm_hi * 256 + imm_lo`, unsigned, whatever the register held; in every
other encoding the bytes after the opcode byte are register indices, or a comparison's discarded byte after them. -/
def Obligations.LoadedImmediateIsBigEndianAndUnsigned : Prop :=
  (∀ (s : State) (d hi lo : Byte) (rd : Fin 32), s.progLen ≤ Config.progMax → s.isFaulted = false →
      s.progByte s.pc.toNat = some 1 → s.progByte (s.pc.toNat + 1) = some d →
      s.progByte (s.pc.toNat + 2) = some hi → s.progByte (s.pc.toNat + 3) = some lo → d.toNat = rd.val →
      ∃ t, step s = .next t ∧ s32 (t.readReg rd) = hi.toNat * 256 + lo.toNat ∧ t.status = .running) ∧
    ∀ i : Instr, i.opcode ≠ .load →
      (encode i).tail = indexFields i ∨ (i.opcode.format = .abx ∧ ∃ pad, (encode i).tail = indexFields i ++ [pad])

/-- 43_arithmetic.md section 2, with decisions D1 and D4 (wrap): Add, Sub and Mul with legal indices complete, with the
true result of the signed operands modulo 2^32 in `x[d]`, A on the left, and nothing else but `pc` and `status`. -/
def Obligations.AddSubMulComplete : Prop :=
  ∀ (s : State) (a b d : Byte) (ra rb rd : Fin 32), a.toNat = ra.val → b.toNat = rb.val → d.toNat = rd.val →
    exec (.add a b d) s =
        .next { s.writeReg rd (u32 (s32 (s.readReg ra) + s32 (s.readReg rb))) with
          pc := s.pc + 4, status := .running } ∧
      exec (.sub a b d) s =
        .next { s.writeReg rd (u32 (s32 (s.readReg ra) - s32 (s.readReg rb))) with
          pc := s.pc + 4, status := .running } ∧
      exec (.mul a b d) s =
        .next { s.writeReg rd (u32 (s32 (s.readReg ra) * s32 (s.readReg rb))) with
          pc := s.pc + 4, status := .running }

/-- 43_arithmetic.md section 2, with decision D5 (truncation): Div completes on every legal form but a zero divisor and
-2^31 / -1, writing the quotient and the remainder's 32-bit pattern. -/
def Obligations.DivCompletes : Prop :=
  ∀ (s : State) (a b d : Byte) (ra rb rd : Fin 32), a.toNat = ra.val → b.toNat = rb.val → d.toNat = rd.val →
    s32 (s.readReg rb) ≠ 0 → ¬(s32 (s.readReg ra) = -2147483648 ∧ s32 (s.readReg rb) = -1) →
    exec (.div a b d) s =
      .next { s.writeReg rd (u32 ((s32 (s.readReg ra)).tdiv (s32 (s.readReg rb)))) with
        rem := u32 ((s32 (s.readReg ra)).tmod (s32 (s.readReg rb))), pc := s.pc + 4, status := .running }

/-- 43_arithmetic.md section 3, decision D5: where Div completes, `va = vb * q + r` with `|r| < |vb|`, and `r` is 0 or
has the sign of the dividend, for the signed readings of the `x[d]` and `rem` it leaves and the old operands. -/
def Obligations.DivisionIdentity : Prop :=
  ∀ (s : State) (a b d : Byte) (ra rb rd : Fin 32), a.toNat = ra.val → b.toNat = rb.val → d.toNat = rd.val →
    s32 (s.readReg rb) ≠ 0 → ¬(s32 (s.readReg ra) = -2147483648 ∧ s32 (s.readReg rb) = -1) →
    ∃ t, exec (.div a b d) s = .next t ∧
      s32 (s.readReg ra) = s32 (s.readReg rb) * s32 (t.readReg rd) + s32 t.rem ∧
      |s32 t.rem| < |s32 (s.readReg rb)| ∧
      (s32 t.rem = 0 ∨ (0 < s32 t.rem ↔ 0 < s32 (s.readReg ra)))

/-- 43_arithmetic.md section 3, 60_exceptions.md section 2, decisions D6, D7, D8: Div by zero, and -2^31 / -1, are
faults that write nothing but `status`. -/
def Obligations.DivFaults : Prop :=
  ∀ (s : State) (a b d : Byte) (ra rb rd : Fin 32), a.toNat = ra.val → b.toNat = rb.val → d.toNat = rd.val →
    (s32 (s.readReg rb) = 0 →
        exec (.div a b d) s = .next { s with status := .faulted (.divideByZero b) s.pc }) ∧
      (s32 (s.readReg ra) = -2147483648 → s32 (s.readReg rb) = -1 →
        exec (.div a b d) s = .next { s with status := .faulted (.divideOverflow b) s.pc })

/-- The other settings of OVERFLOW_MODE and DIV_OVERFLOW_MODE (decisions D4, D6): under `fault` an operation of Add,
Sub or Mul that does not fault gives what `wrap` gives, and its true result fits; it faults exactly when the true
result does not fit. Under `wrap` -2^31 / -1 gives -2^31 and remainder 0. -/
def Obligations.OtherOverflowModes : Prop :=
  (∀ (opcodeByte : Byte) (v : Int),
      (-2147483648 ≤ v ∧ v ≤ 2147483647 →
        narrow .fault opcodeByte v = narrow .wrap opcodeByte v ∧
          narrow .wrap opcodeByte v = .ok ⟨u32 v, none⟩ ∧ s32 (u32 v) = v) ∧
        (¬(-2147483648 ≤ v ∧ v ≤ 2147483647) →
          narrow .fault opcodeByte v = .error (.arithmeticOverflow opcodeByte))) ∧
    ∀ b : Byte, aluDiv .wrap b (-2147483648) (-1) = .ok ⟨u32 (-2147483648), some 0⟩

/-- 44_jump.md, with decision D18: Jump with a legal index puts the register's bit pattern in `pc`, and changes nothing
else. -/
def Obligations.JumpCompletes : Prop :=
  ∀ (s : State) (r : Byte) (q : Fin 32), r.toNat = q.val →
    exec (.jump r) s = .next { s with pc := s.readReg q, status := .running }

/-- 44_jump.md, with decisions D2, D19: JumpForward with a legal index adds the signed register to `a + 2` modulo 2^32,
and changes nothing else. -/
def Obligations.JumpForwardCompletes : Prop :=
  ∀ (s : State) (r : Byte) (q : Fin 32), r.toNat = q.val →
    ∃ target : Word, exec (.jumpForward r) s = .next { s with pc := target, status := .running } ∧
      (target.toNat : Int) = ((s.pc.toNat : Int) + 2 + s32 (s.readReg q)) % 4294967296

/-- 46_conditional_jump.md: JumpIfEqual with a legal index jumps when the flag is true, falls to `a + 2` when it is
false, and changes nothing else, the flag included. -/
def Obligations.JumpIfEqualCompletes : Prop :=
  ∀ (s : State) (r : Byte) (q : Fin 32), r.toNat = q.val →
    (s.flag = true → exec (.jumpIfEqual r) s = .next { s with pc := s.readReg q, status := .running }) ∧
      (s.flag = false → exec (.jumpIfEqual r) s = .next { s with pc := s.pc + 2, status := .running })

/-- 45_comparison.md section 2: each comparison with legal indices writes its relation of the signed values to the flag,
whatever the pad byte, and nothing else but `pc` and `status`. -/
def Obligations.ComparisonsComplete : Prop :=
  ∀ (s : State) (a b pad : Byte) (ra rb : Fin 32), a.toNat = ra.val → b.toNat = rb.val →
    exec (.equal a b pad) s =
        .next { s with flag := decide (s32 (s.readReg ra) = s32 (s.readReg rb)), pc := s.pc + 4, status := .running } ∧
      exec (.notEqual a b pad) s =
        .next { s with flag := decide (s32 (s.readReg ra) ≠ s32 (s.readReg rb)), pc := s.pc + 4, status := .running } ∧
      exec (.greaterThan a b pad) s =
        .next { s with flag := decide (s32 (s.readReg ra) > s32 (s.readReg rb)), pc := s.pc + 4, status := .running } ∧
      exec (.lessThan a b pad) s =
        .next { s with flag := decide (s32 (s.readReg ra) < s32 (s.readReg rb)), pc := s.pc + 4, status := .running } ∧
      exec (.greaterOrEqual a b pad) s =
        .next { s with flag := decide (s32 (s.readReg ra) ≥ s32 (s.readReg rb)), pc := s.pc + 4, status := .running } ∧
      exec (.lessOrEqual a b pad) s =
        .next { s with flag := decide (s32 (s.readReg ra) ≤ s32 (s.readReg rb)), pc := s.pc + 4, status := .running }

/-- 45_comparison.md section 3 (R147, derived in the spec): the opposite pairs, and exactly one of Equal, GreaterThan,
LessThan. -/
def Obligations.ComparisonLaws : Prop :=
  ∀ (s : State) (a b pad : Byte) (ra rb : Fin 32), a.toNat = ra.val → b.toNat = rb.val →
    ∃ e ne gt lt ge le : State,
      exec (.equal a b pad) s = .next e ∧ exec (.notEqual a b pad) s = .next ne ∧
      exec (.greaterThan a b pad) s = .next gt ∧ exec (.lessThan a b pad) s = .next lt ∧
      exec (.greaterOrEqual a b pad) s = .next ge ∧ exec (.lessOrEqual a b pad) s = .next le ∧
      ne.flag = !e.flag ∧ le.flag = !gt.flag ∧ ge.flag = !lt.flag ∧
      ((e.flag = true ∧ gt.flag = false ∧ lt.flag = false) ∨ (e.flag = false ∧ gt.flag = true ∧ lt.flag = false) ∨
        (e.flag = false ∧ gt.flag = false ∧ lt.flag = true))

/-- 10_state.md section 2 (R25, derived in the spec; decisions D2, D18, D19): where an instruction leaves `pc` when it
does not fault, instruction by instruction. -/
def Obligations.PcAfterEachInstruction : Prop :=
  ∀ (i : Instr) (s t : State), exec i s = .next t → t.isFaulted = false →
    match i with
    | .halt | .illegalOpcode _ => t.pc = s.pc + 1
    | .load _ _ | .add _ _ _ | .sub _ _ _ | .mul _ _ _ | .div _ _ _ | .equal _ _ _ | .notEqual _ _ _
    | .greaterThan _ _ _ | .lessThan _ _ _ | .greaterOrEqual _ _ _ | .lessOrEqual _ _ _ => t.pc = s.pc + 4
    | .jump r => ∃ q : Fin 32, r.toNat = q.val ∧ t.pc = s.readReg q
    | .jumpForward r => ∃ q : Fin 32, r.toNat = q.val ∧
        (t.pc.toNat : Int) = ((s.pc.toNat : Int) + 2 + s32 (s.readReg q)) % 4294967296
    | .jumpIfEqual r => ∃ q : Fin 32, r.toNat = q.val ∧ t.pc = if s.flag then s.readReg q else s.pc + 2

/-- 40_step_and_dispatch.md section 3: of the instructions that complete, Halt alone reports stop. The report is read
from the status (log 4). -/
def Obligations.OnlyHaltReportsStop : Prop :=
  ∀ (i : Instr) (s t : State), exec i s = .next t → t.isFaulted = false →
    (t.report = false ↔ i = .halt)

/-- R132: Jump, JumpForward and a taken JumpIfEqual with a legal index never fault, any value can be written to `pc`,
and the only consequence of a target at or beyond N is that the next step reports stop. -/
def Obligations.JumpTargetsAreNotChecked : Prop :=
  ∀ (s : State) (r : Byte) (q : Fin 32) (i : Instr), r.toNat = q.val →
    (i = .jump r ∨ i = .jumpForward r ∨ (i = .jumpIfEqual r ∧ s.flag = true)) →
    (∃ t, exec i s = .next t ∧ t.status = .running ∧
        (t.progLen ≤ t.pc.toNat → step t = .next { t with status := .halted })) ∧
      ∀ target : Word, ∃ v t, exec i (s.writeReg q v) = .next t ∧ t.pc = target ∧ t.status = .running

/-- 44_jump.md R134, decisions D2, D3, D18, D19: a Jump or taken JumpIfEqual to a negative register, and a JumpForward
whose true sum lies below 0 or at or beyond N, end the run at the next step, without a fault.
N is at most PROG_MAX, and JumpForward lies inside the buffer. -/
def Obligations.TargetsOutOfRangeEndTheRun : Prop :=
  ∀ (s : State) (r : Byte) (q : Fin 32), s.progLen ≤ Config.progMax → r.toNat = q.val →
    (s32 (s.readReg q) < 0 →
        (∃ t, exec (.jump r) s = .next t ∧ step t = .next { t with status := .halted }) ∧
          (s.flag = true →
            ∃ t, exec (.jumpIfEqual r) s = .next t ∧ step t = .next { t with status := .halted })) ∧
      (s.pc.toNat + 2 ≤ s.progLen →
        ((s.pc.toNat : Int) + 2 + s32 (s.readReg q) < 0 ∨
          (s.progLen : Int) ≤ (s.pc.toNat : Int) + 2 + s32 (s.readReg q)) →
        ∃ t, exec (.jumpForward r) s = .next t ∧ step t = .next { t with status := .halted })

/-! ### Frames and independence -/

/-- R126: Add, Sub, Mul, Div never write the flag, and Div alone writes `rem`; a register other than the destination,
the diagnostics and every byte of the program buffer stay as they were. -/
def Obligations.ArithmeticFrame : Prop :=
  ∀ (i : Instr) (s t : State), i.opcode.format = .abd → exec i s = .next t →
    t.flag = s.flag ∧ (i.opcode ≠ .div → t.rem = s.rem) ∧
      (∀ r, destReg i ≠ some r → t.readReg r = s.readReg r) ∧ t.diag = s.diag ∧ t.progLen = s.progLen ∧
      ∀ k, t.progByte k = s.progByte k

/-- 42_load.md: Load changes no register but `x[d]`, not `rem`, not the flag, no byte of the program buffer. -/
def Obligations.LoadFrame : Prop :=
  ∀ (d : Byte) (imm : BitVec 16) (s t : State), exec (.load d imm) s = .next t →
    (∀ r : Fin 32, d.toNat ≠ r.val → t.readReg r = s.readReg r) ∧ t.rem = s.rem ∧ t.flag = s.flag ∧
      t.progLen = s.progLen ∧ ∀ k, t.progByte k = s.progByte k

/-- 44_jump.md, 45_comparison.md, 46_conditional_jump.md: comparisons and jumps change no register, not `rem`, no
diagnostic, no byte of the program buffer; jumps do not change the flag. -/
def Obligations.ComparisonAndJumpFrame : Prop :=
  ∀ (i : Instr) (s t : State), i.opcode.format = .abx ∨ i.opcode.format = .r → exec i s = .next t →
    (∀ r, t.readReg r = s.readReg r) ∧ t.rem = s.rem ∧ (i.opcode.format = .r → t.flag = s.flag) ∧
      t.diag = s.diag ∧ t.progLen = s.progLen ∧ ∀ k, t.progByte k = s.progByte k

/-- 41_halt.md, 47_illegal.md: Halt and IllegalOpcode change no register, not `rem`, not the flag, no byte of the
program buffer. -/
def Obligations.HaltAndIllegalOpcodeFrame : Prop :=
  ∀ (i : Instr) (s t : State), i.opcode.format = .z → exec i s = .next t →
    (∀ r, t.readReg r = s.readReg r) ∧ t.rem = s.rem ∧ t.flag = s.flag ∧ t.progLen = s.progLen ∧
      ∀ k, t.progByte k = s.progByte k

/-- R28: the flag is false at reset; only the six comparisons change it; each of them writes it whatever it was before;
JumpIfEqual reads it; no other instruction does. -/
def Obligations.FlagIsWrittenByComparisonsAndReadByJumpIfEqual : Prop :=
  State.reset.flag = false ∧
    (∀ (i : Instr) (s t : State), i.opcode.format ≠ .abx → exec i s = .next t → t.flag = s.flag) ∧
    (∀ (i : Instr) (s : State) (b : Bool), i.opcode.format = .abx → firstBadIndex i = none →
      exec i (s.setFlag b) = exec i s) ∧
    (∀ (i : Instr) (s t : State) (b : Bool), i.opcode.format ≠ .abx → i.opcode ≠ .jumpIfEqual →
      exec i s = .next t → exec i (s.setFlag b) = .next (t.setFlag b)) ∧
    (∀ (s : State) (r : Byte) (q : Fin 32), r.toNat = q.val →
      exec (.jumpIfEqual r) (s.setFlag true) =
          .next { s with flag := true, pc := s.readReg q, status := .running } ∧
        exec (.jumpIfEqual r) (s.setFlag false) =
          .next { s with flag := false, pc := s.pc + 2, status := .running })

/-- 10_state.md R27 with decisions D1, D5: `rem` is 0 at reset, no instruction reads it, Div alone writes it, and a Div
that faults does not. -/
def Obligations.RemainderIsWrittenByDivAndReadByNone : Prop :=
  State.reset.rem = 0 ∧
    (∀ (i : Instr) (s t : State), exec i s = .next t → i.opcode ≠ .div ∨ t.isFaulted = true → t.rem = s.rem) ∧
    (∀ (i : Instr) (s t : State) (v : Word), exec i s = .next t →
      exec i (s.setRem v) =
        .next (if i.opcode = .div ∧ t.isFaulted = false then t else t.setRem v)) ∧
    (∀ (a b d : Byte) (ra rb : Fin 32) (s t : State), a.toNat = ra.val → b.toNat = rb.val →
      exec (.div a b d) s = .next t → t.isFaulted = false →
      t.rem = u32 ((s32 (s.readReg ra)).tmod (s32 (s.readReg rb))))

/-- 10_state.md section 1: an instruction changes no register but the one its destination index selects. -/
def Obligations.OnlyTheDestinationRegisterChanges : Prop :=
  ∀ (i : Instr) (s t : State) (r : Fin 32), exec i s = .next t → destReg i ≠ some r → t.readReg r = s.readReg r

/-- 10_state.md section 1: a register that no index field of an instruction names is neither read nor written by it. -/
def Obligations.RegistersNotNamedDoNotMatter : Prop :=
  ∀ (i : Instr) (s t : State) (r : Fin 32) (v : Word), (∀ b ∈ indexFields i, b.toNat ≠ r.val) →
    exec i s = .next t → exec i (s.writeReg r v) = .next (t.writeReg r v)

/-- 10_state.md section 1: no register is hardwired or aliased: each reads what was last written to it, register 0 too. -/
def Obligations.RegisterFileReadsWhatWasWritten : Prop :=
  ∀ (s : State) (r q : Fin 32) (v : Word), (s.writeReg r v).readReg q = if q = r then v else s.readReg q

/-- 70_reset_and_hazards.md section 5, decision D13, log 7: a step appends to the diagnostic stream what it emits (Halt,
IllegalOpcode, Load, when they complete), and nothing depends on the stream. -/
def Obligations.DiagnosticsAreWriteOnly : Prop :=
  (∀ (s t : State) (d : List DiagEvent), step s = .next t →
      ∃ e, t.diag = s.diag ++ e ∧ step { s with diag := d } = .next { t with diag := d ++ e }) ∧
    ∀ (i : Instr) (s t : State), exec i s = .next t →
      t.diag = s.diag ++
        if t.isFaulted then []
        else match i with
          | .halt => [.halt s.pc]
          | .load _ imm => [.load imm]
          | .illegalOpcode op => [.illegalOpcode s.pc op]
          | .add _ _ _ | .sub _ _ _ | .mul _ _ _ | .div _ _ _ | .jump _ | .jumpForward _ | .equal _ _ _
          | .notEqual _ _ _ | .greaterThan _ _ _ | .lessThan _ _ _ | .greaterOrEqual _ _ _ | .lessOrEqual _ _ _
          | .jumpIfEqual _ => []

/-! ### Faults -/

/-- 60_exceptions.md section 2, decision D8: the codes and what each fault records. -/
def Obligations.FaultCodes : Prop :=
  (∀ i, (Cause.registerIndexOutOfRange i).code = 2 ∧ (Cause.registerIndexOutOfRange i).info = i.toNat) ∧
    (∀ o, (Cause.fetchOverrun o).code = 3 ∧ (Cause.fetchOverrun o).info = o.toNat) ∧
    (∀ b, (Cause.divideByZero b).code = 4 ∧ (Cause.divideByZero b).info = b.toNat) ∧
    (∀ b, (Cause.divideOverflow b).code = 5 ∧ (Cause.divideOverflow b).info = b.toNat) ∧
    (∀ op, (Cause.arithmeticOverflow op).code = 6 ∧ (Cause.arithmeticOverflow op).info = op.toNat)

/-- 60_exceptions.md sections 2 and 3, decisions D7, D8, D9, D10: an instruction with an index field of 32 or more faults
with the first such field in its format's order, writing nothing but `status`, JumpIfEqual taken or not. -/
def Obligations.FirstBadIndexFaults : Prop :=
  ∀ (i : Instr) (s : State) (j : Byte), firstBadIndex i = some j →
    exec i s = .next { s with status := .faulted (.registerIndexOutOfRange j) s.pc }

/-- 60_exceptions.md section 2, decisions D4, D6, D7: which instructions fault once they are fetched: one with a bad
index, or a Div by zero or of -2^31 by -1; every other one completes. -/
def Obligations.ExecFaultsExactlyWhen : Prop :=
  ∀ (i : Instr) (s : State), ∃ t, exec i s = .next t ∧
    (t.isFaulted = true ↔
      (∃ j, firstBadIndex i = some j) ∨
        ∃ (a b d : Byte) (ra rb : Fin 32), i = .div a b d ∧ a.toNat = ra.val ∧ b.toNat = rb.val ∧
          (s32 (s.readReg rb) = 0 ∨ (s32 (s.readReg ra) = -2147483648 ∧ s32 (s.readReg rb) = -1)))

/-- 60_exceptions.md section 2 (R173), decisions D7, D8, D9, D21: an instruction at `a < N` of `L` bytes raises
FetchOverrun exactly when `a + L > N`, recording N; else it is fetched whole, and the step is that instruction's. -/
def Obligations.FetchOverrunExactlyWhenCutShort : Prop :=
  ∀ (s : State) (b : Byte), s.progLen ≤ Config.progMax → s.isFaulted = false → s.progByte s.pc.toNat = some b →
    (s.progLen < s.pc.toNat + (decodeOpcode b).format.length →
        step s = .next { s with status := .faulted (.fetchOverrun (BitVec.ofNat 32 s.progLen)) s.pc }) ∧
      (s.pc.toNat + (decodeOpcode b).format.length ≤ s.progLen →
        (∃ i, i.opcode = decodeOpcode b ∧ step s = exec i s) ∧
          ∀ t o p, step s = .next t → t.status ≠ .faulted (.fetchOverrun o) p)

/-- 60_exceptions.md section 3 (R176), decision D7: a step that faults changes nothing but `status`, which records where
the instruction began. -/
def Obligations.FaultsArePrecise : Prop :=
  ∀ (s t : State), s.isFaulted = false → step s = .next t → t.isFaulted = true →
    ∃ c, t = { s with status := .faulted c s.pc }

/-- 60_exceptions.md sections 3, 6 (R180, R191), decisions D7, D16, D20: `Faulted` is left only by Reset. -/
def Obligations.FaultedIsLeftOnlyByReset : Prop :=
  ∀ s : State, s.isFaulted = true →
    step s = .next s ∧ (∀ bytes, loadProgram bytes s = .refused .loadProgramInFaulted) ∧
      (∀ target v, poke target v s = .refused .pokeInFaulted) ∧
      (∀ fuel, run (fuel + 1) s = .ended s) ∧
      ∀ op t, applyHostOp op s = .next t → t = s ∨ t = State.reset

/-! ### The host, runs and the invariant -/

/-- 10_state.md section 5 (R35), decisions D3, D20: LoadProgram of at most PROG_MAX bytes replaces the buffer as a whole,
sets `Running`, and changes nothing else; a longer list is refused.
The clause that the new list of cells has the canonical form (`wf`) is the model's choice of form (log 1), no rule of
the spec. -/
def Obligations.LoadProgramReplacesTheBuffer : Prop :=
  ∀ (s : State) (bytes : List Byte), s.isFaulted = false →
    (bytes.length ≤ Config.progMax →
        ∃ t, loadProgram bytes s = .next t ∧ t.progLen = bytes.length ∧ (∀ k, t.progByte k = bytes[k]?) ∧
          t.prog.wf = true ∧ t = { s with prog := t.prog, progLen := t.progLen, status := .running }) ∧
      (Config.progMax < bytes.length → loadProgram bytes s = .refused .loadProgramTooLong)

/-- 60_exceptions.md section 6 (R191), decision D16: Poke writes the register or `pc` it names, and nothing else. -/
def Obligations.PokeWritesWhatItNames : Prop :=
  ∀ (s : State) (v : Word), s.isFaulted = false →
    (∀ r : Fin 32, ∃ t, poke (.reg r) v s = .next t ∧ t = { s with regs := t.regs } ∧ t.readReg r = v ∧
        ∀ q, q ≠ r → t.readReg q = s.readReg q) ∧
      poke .pc v s = .next { s with pc := v }

/-- Log 1: two program buffers in canonical form that read alike at every offset are equal data, and writing a byte
keeps the form, changes that byte and no other. -/
def Obligations.CanonicalMemoryIsUnique : Prop :=
  (∀ m m' : Memory, m.wf = true → m'.wf = true → (∀ k, m.read k = m'.read k) → m = m') ∧
    ∀ (m : Memory) (k j : Nat) (v : Byte), m.wf = true →
      (m.write k v).wf = true ∧ (m.write k v).read j = if j = k then v else m.read j

/-- 40_step_and_dispatch.md R95 and 70_reset_and_hazards.md R214, under fuel (log 14): a run ends in exactly one of
three ways, at the first step that reports stop. -/
def Obligations.RunEndsInOneOfThreeWays : Prop :=
  ∀ (fuel : Nat) (s t : State), run fuel s = .ended t →
    ∃ n u, n < fuel ∧ run n s = .unfinished u ∧ step u = .next t ∧ (t.succeeded ∨ t.failed) ∧
      ((u.isFaulted = false ∧ u.progLen ≤ u.pc.toNat ∧ t = { u with status := .halted }) ∨
        (u.isFaulted = false ∧ u.progByte u.pc.toNat = some 0 ∧
          t = { u with pc := u.pc + 1, status := .halted, diag := u.diag ++ [.halt u.pc] }) ∨
        t.failed)

/-- A buffer of Halt and illegal bytes only: every run over it, from any `pc`, that ends ends successfully
(41_halt.md and 47_illegal.md: neither raises a fault). -/
def Obligations.OperandFreeProgramsRunSafely : Prop :=
  ∀ s : State, s.isFaulted = false →
    (∀ k b, s.progByte k = some b → b = 0 ∨ 15 ≤ b.toNat) → s.runsSafely

/-- A fault that a step has just raised comes again if the machine is set running in the state the fault left
(decision D7: the fault changed nothing else). -/
def Obligations.FaultComesAgain : Prop :=
  ∀ s t : State, s.isFaulted = false → step s = .next t → t.isFaulted = true →
    step { t with status := .running } = .next t

/-- The invariant is kept by every step, from every state that has it, reached by a run or not: the program buffer stays
in canonical form inside N (the model's choice of form: log 1), N stays within PROG_MAX (decision D3), and a recorded
fault is the one the kept state shows (decision D7). -/
def Obligations.EveryStepKeepsTheInvariant : Prop :=
  ∀ s t : State, s.Inv → step s = .next t → t.Inv

/-- The invariant holds in every state the host can bring the machine to by Reset, LoadProgram, Step and Poke; there the
program buffer has the canonical form, N is within PROG_MAX, and ArithmeticOverflow never stands in `status`
(decisions D3, D4).
The canonical form is the model's choice (log 1), and that these four operations are all the host can do is log 14
(decisions D16, D20). -/
def Obligations.ReachableStatesHaveTheInvariant : Prop :=
  ∀ s : State, Reachable s → s.Inv ∧ ∀ op p, s.status ≠ .faulted (.arithmeticOverflow op) p
end

