-- ==== Sys2Proof/Laws/Decode.lean ====
section
/-!
SUPPORT. What the decoder's parts can answer, and the two halves of the big-endian immediate.
-/

namespace Sys2Proof

/-! ### the immediate -/

theorem bigEndian16_toNat (hi lo : Byte) : (bigEndian16 hi lo).toNat = hi.toNat * 256 + lo.toNat := by
  have h : (bigEndian16 hi lo).toNat = hi.toNat <<< 8 ||| lo.toNat := BitVec.toNat_append hi lo
  rw [h, ← Nat.shiftLeft_add_eq_or_of_lt lo.isLt, Nat.shiftLeft_eq]

theorem bigEndian16_extract (imm : BitVec 16) :
    bigEndian16 (imm.extractLsb' 8 8) (imm.extractLsb' 0 8) = imm := by
  apply BitVec.eq_of_toNat_eq
  have := imm.isLt
  rw [bigEndian16_toNat, BitVec.extractLsb'_toNat, BitVec.extractLsb'_toNat, Nat.shiftRight_eq_div_pow]
  simp
  omega

theorem bigEndian16_high (hi lo : Byte) : (bigEndian16 hi lo).extractLsb' 8 8 = hi := by
  apply BitVec.eq_of_toNat_eq
  have := hi.isLt
  have := lo.isLt
  rw [BitVec.extractLsb'_toNat, bigEndian16_toNat, Nat.shiftRight_eq_div_pow]
  omega

theorem bigEndian16_low (hi lo : Byte) : (bigEndian16 hi lo).extractLsb' 0 8 = lo := by
  apply BitVec.eq_of_toNat_eq
  have := hi.isLt
  have := lo.isLt
  rw [BitVec.extractLsb'_toNat, bigEndian16_toNat, Nat.shiftRight_eq_div_pow]
  omega

/-! ### the opcode byte -/

/-- An operation decodes from its one byte only. -/
theorem decodeOpcode_opcodeByte (b : Byte) : (decodeOpcode b).opcodeByte = some b ∨ 15 ≤ b.toNat := by
  revert b; decide

theorem decodeOpcode_of_ge {b : Byte} (h : 15 ≤ b.toNat) : decodeOpcode b = .illegalOpcode := by
  revert b; decide

theorem decodeOpcode_illegal {b : Byte} (h : decodeOpcode b = .illegalOpcode) : 15 ≤ b.toNat := by
  revert b; decide

/-- The byte an operation was decoded from. -/
theorem decodeOpcode_eq {b : Byte} {op : Opcode} (h : decodeOpcode b = op) (hop : op ≠ .illegalOpcode) :
    op.opcodeByte = some b := by
  rcases decodeOpcode_opcodeByte b with h' | h'
  · rwa [h] at h'
  · exact absurd ((decodeOpcode_of_ge h').symm.trans h).symm hop

/-! ### the formats -/

theorem decodeR_ok {op : Opcode} {mk : Byte → Instr} {operands : List Byte} {i : Instr}
    (h : decodeR op mk operands = .ok i) : ∃ r rest, operands = r :: rest ∧ i = mk r := by
  unfold decodeR at h
  split at h
  · cases h; exact ⟨_, _, rfl, rfl⟩
  · cases h

theorem decodeDI_ok {op : Opcode} {mk : Byte → BitVec 16 → Instr} {operands : List Byte} {i : Instr}
    (h : decodeDI op mk operands = .ok i) :
    ∃ d hi lo rest, operands = d :: hi :: lo :: rest ∧ i = mk d (bigEndian16 hi lo) := by
  unfold decodeDI at h
  split at h
  · cases h; exact ⟨_, _, _, _, rfl, rfl⟩
  · cases h

theorem decodeThree_ok {op : Opcode} {mk : Byte → Byte → Byte → Instr} {operands : List Byte} {i : Instr}
    (h : decodeThree op mk operands = .ok i) :
    ∃ x y z rest, operands = x :: y :: z :: rest ∧ i = mk x y z := by
  unfold decodeThree at h
  split at h
  · cases h; exact ⟨_, _, _, _, rfl, rfl⟩
  · cases h

end Sys2Proof
end

