-- ==== Sys2Proof/Laws/State.lean ====
section
/-!
SUPPORT. One lemma per field per named update of State, so that no proof unfolds a record update.
-/

namespace Sys2Proof.Machine

variable (s : State)

/-! ### writeReg -/

@[simp] theorem State.writeReg_regs (r : Fin 32) (v : Word) : (s.writeReg r v).regs = s.regs.set r.val v r.isLt := rfl
@[simp] theorem State.writeReg_pc (r : Fin 32) (v : Word) : (s.writeReg r v).pc = s.pc := rfl
@[simp] theorem State.writeReg_rem (r : Fin 32) (v : Word) : (s.writeReg r v).rem = s.rem := rfl
@[simp] theorem State.writeReg_flag (r : Fin 32) (v : Word) : (s.writeReg r v).flag = s.flag := rfl
@[simp] theorem State.writeReg_status (r : Fin 32) (v : Word) : (s.writeReg r v).status = s.status := rfl
@[simp] theorem State.writeReg_prog (r : Fin 32) (v : Word) : (s.writeReg r v).prog = s.prog := rfl
@[simp] theorem State.writeReg_progLen (r : Fin 32) (v : Word) : (s.writeReg r v).progLen = s.progLen := rfl
@[simp] theorem State.writeReg_diag (r : Fin 32) (v : Word) : (s.writeReg r v).diag = s.diag := rfl
@[simp] theorem State.writeReg_progByte (r : Fin 32) (v : Word) (k : Nat) : (s.writeReg r v).progByte k = s.progByte k := rfl

/-! ### setPc -/

@[simp] theorem State.setPc_regs (v : Word) : (s.setPc v).regs = s.regs := rfl
@[simp] theorem State.setPc_pc (v : Word) : (s.setPc v).pc = v := rfl
@[simp] theorem State.setPc_rem (v : Word) : (s.setPc v).rem = s.rem := rfl
@[simp] theorem State.setPc_flag (v : Word) : (s.setPc v).flag = s.flag := rfl
@[simp] theorem State.setPc_status (v : Word) : (s.setPc v).status = s.status := rfl
@[simp] theorem State.setPc_prog (v : Word) : (s.setPc v).prog = s.prog := rfl
@[simp] theorem State.setPc_progLen (v : Word) : (s.setPc v).progLen = s.progLen := rfl
@[simp] theorem State.setPc_diag (v : Word) : (s.setPc v).diag = s.diag := rfl
@[simp] theorem State.setPc_readReg (v : Word) (q : Fin 32) : (s.setPc v).readReg q = s.readReg q := rfl
@[simp] theorem State.setPc_progByte (v : Word) (k : Nat) : (s.setPc v).progByte k = s.progByte k := rfl

/-! ### setRem -/

@[simp] theorem State.setRem_regs (v : Word) : (s.setRem v).regs = s.regs := rfl
@[simp] theorem State.setRem_pc (v : Word) : (s.setRem v).pc = s.pc := rfl
@[simp] theorem State.setRem_rem (v : Word) : (s.setRem v).rem = v := rfl
@[simp] theorem State.setRem_flag (v : Word) : (s.setRem v).flag = s.flag := rfl
@[simp] theorem State.setRem_status (v : Word) : (s.setRem v).status = s.status := rfl
@[simp] theorem State.setRem_prog (v : Word) : (s.setRem v).prog = s.prog := rfl
@[simp] theorem State.setRem_progLen (v : Word) : (s.setRem v).progLen = s.progLen := rfl
@[simp] theorem State.setRem_diag (v : Word) : (s.setRem v).diag = s.diag := rfl
@[simp] theorem State.setRem_readReg (v : Word) (q : Fin 32) : (s.setRem v).readReg q = s.readReg q := rfl
@[simp] theorem State.setRem_progByte (v : Word) (k : Nat) : (s.setRem v).progByte k = s.progByte k := rfl

/-! ### setFlag -/

@[simp] theorem State.setFlag_regs (b : Bool) : (s.setFlag b).regs = s.regs := rfl
@[simp] theorem State.setFlag_pc (b : Bool) : (s.setFlag b).pc = s.pc := rfl
@[simp] theorem State.setFlag_rem (b : Bool) : (s.setFlag b).rem = s.rem := rfl
@[simp] theorem State.setFlag_flag (b : Bool) : (s.setFlag b).flag = b := rfl
@[simp] theorem State.setFlag_status (b : Bool) : (s.setFlag b).status = s.status := rfl
@[simp] theorem State.setFlag_prog (b : Bool) : (s.setFlag b).prog = s.prog := rfl
@[simp] theorem State.setFlag_progLen (b : Bool) : (s.setFlag b).progLen = s.progLen := rfl
@[simp] theorem State.setFlag_diag (b : Bool) : (s.setFlag b).diag = s.diag := rfl
@[simp] theorem State.setFlag_readReg (b : Bool) (q : Fin 32) : (s.setFlag b).readReg q = s.readReg q := rfl
@[simp] theorem State.setFlag_progByte (b : Bool) (k : Nat) : (s.setFlag b).progByte k = s.progByte k := rfl

/-! ### setStatus -/

@[simp] theorem State.setStatus_regs (v : Status) : (s.setStatus v).regs = s.regs := rfl
@[simp] theorem State.setStatus_pc (v : Status) : (s.setStatus v).pc = s.pc := rfl
@[simp] theorem State.setStatus_rem (v : Status) : (s.setStatus v).rem = s.rem := rfl
@[simp] theorem State.setStatus_flag (v : Status) : (s.setStatus v).flag = s.flag := rfl
@[simp] theorem State.setStatus_status (v : Status) : (s.setStatus v).status = v := rfl
@[simp] theorem State.setStatus_prog (v : Status) : (s.setStatus v).prog = s.prog := rfl
@[simp] theorem State.setStatus_progLen (v : Status) : (s.setStatus v).progLen = s.progLen := rfl
@[simp] theorem State.setStatus_diag (v : Status) : (s.setStatus v).diag = s.diag := rfl
@[simp] theorem State.setStatus_readReg (v : Status) (q : Fin 32) : (s.setStatus v).readReg q = s.readReg q := rfl
@[simp] theorem State.setStatus_progByte (v : Status) (k : Nat) : (s.setStatus v).progByte k = s.progByte k := rfl

/-! ### setProgram -/

@[simp] theorem State.setProgram_regs (m : Memory) (n : Nat) : (s.setProgram m n).regs = s.regs := rfl
@[simp] theorem State.setProgram_pc (m : Memory) (n : Nat) : (s.setProgram m n).pc = s.pc := rfl
@[simp] theorem State.setProgram_rem (m : Memory) (n : Nat) : (s.setProgram m n).rem = s.rem := rfl
@[simp] theorem State.setProgram_flag (m : Memory) (n : Nat) : (s.setProgram m n).flag = s.flag := rfl
@[simp] theorem State.setProgram_status (m : Memory) (n : Nat) : (s.setProgram m n).status = s.status := rfl
@[simp] theorem State.setProgram_prog (m : Memory) (n : Nat) : (s.setProgram m n).prog = m := rfl
@[simp] theorem State.setProgram_progLen (m : Memory) (n : Nat) : (s.setProgram m n).progLen = n := rfl
@[simp] theorem State.setProgram_diag (m : Memory) (n : Nat) : (s.setProgram m n).diag = s.diag := rfl
@[simp] theorem State.setProgram_readReg (m : Memory) (n : Nat) (q : Fin 32) : (s.setProgram m n).readReg q = s.readReg q := rfl

/-! ### emit -/

@[simp] theorem State.emit_regs (e : DiagEvent) : (s.emit e).regs = s.regs := rfl
@[simp] theorem State.emit_pc (e : DiagEvent) : (s.emit e).pc = s.pc := rfl
@[simp] theorem State.emit_rem (e : DiagEvent) : (s.emit e).rem = s.rem := rfl
@[simp] theorem State.emit_flag (e : DiagEvent) : (s.emit e).flag = s.flag := rfl
@[simp] theorem State.emit_status (e : DiagEvent) : (s.emit e).status = s.status := rfl
@[simp] theorem State.emit_prog (e : DiagEvent) : (s.emit e).prog = s.prog := rfl
@[simp] theorem State.emit_progLen (e : DiagEvent) : (s.emit e).progLen = s.progLen := rfl
@[simp] theorem State.emit_diag (e : DiagEvent) : (s.emit e).diag = s.diag ++ [e] := rfl
@[simp] theorem State.emit_readReg (e : DiagEvent) (q : Fin 32) : (s.emit e).readReg q = s.readReg q := rfl
@[simp] theorem State.emit_progByte (e : DiagEvent) (k : Nat) : (s.emit e).progByte k = s.progByte k := rfl

/-! ### continueAt -/

@[simp] theorem State.continueAt_regs (v : Word) : (s.continueAt v).regs = s.regs := rfl
@[simp] theorem State.continueAt_pc (v : Word) : (s.continueAt v).pc = v := rfl
@[simp] theorem State.continueAt_rem (v : Word) : (s.continueAt v).rem = s.rem := rfl
@[simp] theorem State.continueAt_flag (v : Word) : (s.continueAt v).flag = s.flag := rfl
@[simp] theorem State.continueAt_status (v : Word) : (s.continueAt v).status = .running := rfl
@[simp] theorem State.continueAt_prog (v : Word) : (s.continueAt v).prog = s.prog := rfl
@[simp] theorem State.continueAt_progLen (v : Word) : (s.continueAt v).progLen = s.progLen := rfl
@[simp] theorem State.continueAt_diag (v : Word) : (s.continueAt v).diag = s.diag := rfl
@[simp] theorem State.continueAt_readReg (v : Word) (q : Fin 32) : (s.continueAt v).readReg q = s.readReg q := rfl
@[simp] theorem State.continueAt_progByte (v : Word) (k : Nat) : (s.continueAt v).progByte k = s.progByte k := rfl

/-! ### haltAt -/

@[simp] theorem State.haltAt_regs (v : Word) : (s.haltAt v).regs = s.regs := rfl
@[simp] theorem State.haltAt_pc (v : Word) : (s.haltAt v).pc = v := rfl
@[simp] theorem State.haltAt_rem (v : Word) : (s.haltAt v).rem = s.rem := rfl
@[simp] theorem State.haltAt_flag (v : Word) : (s.haltAt v).flag = s.flag := rfl
@[simp] theorem State.haltAt_status (v : Word) : (s.haltAt v).status = .halted := rfl
@[simp] theorem State.haltAt_prog (v : Word) : (s.haltAt v).prog = s.prog := rfl
@[simp] theorem State.haltAt_progLen (v : Word) : (s.haltAt v).progLen = s.progLen := rfl
@[simp] theorem State.haltAt_diag (v : Word) : (s.haltAt v).diag = s.diag := rfl
@[simp] theorem State.haltAt_readReg (v : Word) (q : Fin 32) : (s.haltAt v).readReg q = s.readReg q := rfl
@[simp] theorem State.haltAt_progByte (v : Word) (k : Nat) : (s.haltAt v).progByte k = s.progByte k := rfl

/-! ### taking a fault, and exhaustion -/

@[simp] theorem raise_regs (c : Cause) : (raise c s).regs = s.regs := rfl
@[simp] theorem raise_pc (c : Cause) : (raise c s).pc = s.pc := rfl
@[simp] theorem raise_rem (c : Cause) : (raise c s).rem = s.rem := rfl
@[simp] theorem raise_flag (c : Cause) : (raise c s).flag = s.flag := rfl
@[simp] theorem raise_status (c : Cause) : (raise c s).status = .faulted c s.pc := rfl
@[simp] theorem raise_prog (c : Cause) : (raise c s).prog = s.prog := rfl
@[simp] theorem raise_progLen (c : Cause) : (raise c s).progLen = s.progLen := rfl
@[simp] theorem raise_diag (c : Cause) : (raise c s).diag = s.diag := rfl
@[simp] theorem raise_readReg (c : Cause) (q : Fin 32) : (raise c s).readReg q = s.readReg q := rfl
@[simp] theorem raise_progByte (c : Cause) (k : Nat) : (raise c s).progByte k = s.progByte k := rfl
@[simp] theorem stopExhausted_regs  : (stopExhausted s).regs = s.regs := rfl
@[simp] theorem stopExhausted_pc  : (stopExhausted s).pc = s.pc := rfl
@[simp] theorem stopExhausted_rem  : (stopExhausted s).rem = s.rem := rfl
@[simp] theorem stopExhausted_flag  : (stopExhausted s).flag = s.flag := rfl
@[simp] theorem stopExhausted_status  : (stopExhausted s).status = .halted := rfl
@[simp] theorem stopExhausted_prog  : (stopExhausted s).prog = s.prog := rfl
@[simp] theorem stopExhausted_progLen  : (stopExhausted s).progLen = s.progLen := rfl
@[simp] theorem stopExhausted_diag  : (stopExhausted s).diag = s.diag := rfl
@[simp] theorem stopExhausted_readReg  (q : Fin 32) : (stopExhausted s).readReg q = s.readReg q := rfl
@[simp] theorem stopExhausted_progByte  (k : Nat) : (stopExhausted s).progByte k = s.progByte k := rfl
@[simp] theorem raise_isFaulted (c : Cause) : (raise c s).isFaulted = true := rfl

/-! ### the register file -/

@[simp] theorem State.writeReg_readReg_same (r : Fin 32) (v : Word) : (s.writeReg r v).readReg r = v := by
  simp [State.readReg, State.writeReg]

theorem State.writeReg_readReg_other {r q : Fin 32} (v : Word) (h : r ≠ q) :
    (s.writeReg r v).readReg q = s.readReg q := by
  have h' : r.val ≠ q.val := fun e => h (Fin.ext e)
  simp [State.readReg, State.writeReg, h']

/-- Two states whose fields agree are equal. -/
theorem State.eq_of_fields {s t : State} (h1 : s.regs = t.regs) (h2 : s.pc = t.pc) (h3 : s.rem = t.rem)
    (h4 : s.flag = t.flag) (h5 : s.status = t.status) (h6 : s.prog = t.prog) (h7 : s.progLen = t.progLen)
    (h8 : s.diag = t.diag) : s = t := by
  cases s; cases t; simp_all

/-! ### the run status -/

theorem State.isFaulted_iff : s.isFaulted = true ↔ ∃ c p, s.status = .faulted c p := by
  cases h : s.status <;> simp [State.isFaulted, h]

@[simp] theorem State.setStatus_isFaulted_running : (s.setStatus .running).isFaulted = false := rfl
@[simp] theorem State.setStatus_isFaulted_halted : (s.setStatus .halted).isFaulted = false := rfl
@[simp] theorem State.continueAt_isFaulted (v : Word) : (s.continueAt v).isFaulted = false := rfl
@[simp] theorem State.haltAt_isFaulted (v : Word) : (s.haltAt v).isFaulted = false := rfl

end Sys2Proof.Machine
end

