-- ==== Sys2Proof/Laws/Memory.lean ====
section
/-!
SUPPORT. The list of cells behind the program buffer: reads after writes, the canonical form, and that every
operation keeps it (log 1).
-/

namespace Sys2Proof.Machine

/-! ### reading -/

theorem Memory.read_cons (a k : Nat) (b : Byte) (m : Memory) :
    Memory.read ((a, b) :: m) k = if a = k then b else Memory.read m k := rfl

theorem Memory.wfFrom_cons (lo a : Nat) (b : Byte) (m : Memory) :
    Memory.wfFrom lo ((a, b) :: m) = true ↔
      lo ≤ a ∧ b ≠ Config.unlistedByte ∧ Memory.wfFrom (a + 1) m = true := by
  simp [Memory.wfFrom, and_assoc]

theorem Memory.wfFrom_le {lo lo' : Nat} {m : Memory} (h : Memory.wfFrom lo m = true) (hle : lo' ≤ lo) :
    Memory.wfFrom lo' m = true := by
  cases m with
  | nil => rfl
  | cons c m =>
    obtain ⟨a, b⟩ := c
    rw [Memory.wfFrom_cons] at h ⊢
    exact ⟨hle.trans h.1, h.2⟩

/-- Below the first listed offset nothing is listed. -/
theorem Memory.read_of_lt {lo k : Nat} {m : Memory} (h : Memory.wfFrom lo m = true) (hk : k < lo) :
    m.read k = Config.unlistedByte := by
  induction m generalizing lo with
  | nil => rfl
  | cons c m ih =>
    obtain ⟨a, b⟩ := c
    rw [Memory.wfFrom_cons] at h
    rw [Memory.read_cons, if_neg (by omega), ih h.2.2 (by omega)]

/-! ### writing -/

/-- What a write does, said once: the byte written, and every other offset as before. -/
theorem Memory.read_write {lo : Nat} {m : Memory} (h : Memory.wfFrom lo m = true) (k : Nat) (v : Byte) (j : Nat) :
    (m.write k v).read j = if j = k then v else m.read j := by
  induction m generalizing lo with
  | nil =>
    by_cases hj : j = k
    · by_cases hv : v = Config.unlistedByte <;> simp [Memory.write, Memory.read, hv, hj]
    · by_cases hv : v = Config.unlistedByte <;> simp [Memory.write, Memory.read, hv, hj, Ne.symm hj]
  | cons c m ih =>
    obtain ⟨a, b⟩ := c
    rw [Memory.wfFrom_cons] at h
    have hlow : ∀ i, i ≤ a → Memory.read m i = Config.unlistedByte := fun i hi =>
      Memory.read_of_lt h.2.2 (by omega)
    rcases Nat.lt_trichotomy k a with hka | rfl | hka
    · by_cases hv : v = Config.unlistedByte <;> by_cases hj : j = k
      · subst hj
        simp [Memory.write, hka, hv, Memory.read_cons, hlow j hka.le, hka.ne']
      · simp [Memory.write, hka, hv, hj]
      · simp [Memory.write, hka, hv, hj, Memory.read_cons]
      · simp [Memory.write, hka, hv, hj, Memory.read_cons, Ne.symm hj]
    · by_cases hv : v = Config.unlistedByte <;> by_cases hj : j = k
      · subst hj
        simp [Memory.write, hv, hlow j le_rfl]
      · simp [Memory.write, hv, hj, Memory.read_cons, Ne.symm hj]
      · simp [Memory.write, hv, hj, Memory.read_cons]
      · simp [Memory.write, hv, hj, Memory.read_cons, Ne.symm hj]
    · by_cases hj : a = j
      · subst hj
        simp [Memory.write, hka.not_gt, hka.ne', Memory.read_cons, hka.ne]
      · simp [Memory.write, hka.not_gt, hka.ne', Memory.read_cons, hj, ih h.2.2]

theorem Memory.write_wfFrom {lo : Nat} {m : Memory} (h : Memory.wfFrom lo m = true) {k : Nat} (hk : lo ≤ k)
    (v : Byte) : Memory.wfFrom lo (m.write k v) = true := by
  induction m generalizing lo with
  | nil => by_cases hv : v = Config.unlistedByte <;> simp [Memory.write, hv, Memory.wfFrom, hk]
  | cons c m ih =>
    obtain ⟨a, b⟩ := c
    have h0 := h
    rw [Memory.wfFrom_cons] at h
    by_cases hka : k < a
    · by_cases hv : v = Config.unlistedByte
      · simpa [Memory.write, hka, hv] using h0
      · simp only [Memory.write, hka, hv, if_true, if_false]
        rw [Memory.wfFrom_cons, Memory.wfFrom_cons]
        exact ⟨hk, hv, by omega, h.2⟩
    · by_cases hke : k = a
      · subst hke
        by_cases hv : v = Config.unlistedByte
        · simpa [Memory.write, hv] using Memory.wfFrom_le h.2.2 (by omega)
        · simpa [Memory.write, hv, Memory.wfFrom_cons, hk] using h.2.2
      · simp only [Memory.write, hka, hke, if_false]
        rw [Memory.wfFrom_cons]
        exact ⟨h.1, h.2.1, ih h.2.2 (by omega)⟩

/-- A write keeps the canonical form. -/
theorem Memory.write_wf {m : Memory} (h : m.wf = true) (k : Nat) (v : Byte) : (m.write k v).wf = true :=
  Memory.write_wfFrom h (Nat.zero_le k) v

/-! ### a whole program -/

/-- Laying out a list of bytes gives the canonical form. -/
theorem Memory.ofBytes_wfFrom (k : Nat) (bytes : List Byte) : Memory.wfFrom k (Memory.ofBytes k bytes) = true := by
  induction bytes generalizing k with
  | nil => rfl
  | cons b rest ih =>
    by_cases hb : b = Config.unlistedByte
    · simpa [Memory.ofBytes, hb] using Memory.wfFrom_le (ih (k + 1)) (by omega)
    · simpa [Memory.ofBytes, hb, Memory.wfFrom] using ih (k + 1)

theorem Memory.ofBytes_wf (k : Nat) (bytes : List Byte) : (Memory.ofBytes k bytes).wf = true :=
  Memory.wfFrom_le (Memory.ofBytes_wfFrom k bytes) (Nat.zero_le k)

/-- Every listed offset of a program laid out from `k` lies below its end. -/
theorem Memory.ofBytes_below (k : Nat) (bytes : List Byte) :
    Memory.below (k + bytes.length) (Memory.ofBytes k bytes) = true := by
  induction bytes generalizing k with
  | nil => rfl
  | cons b rest ih =>
    have h := ih (k + 1)
    rw [show k + 1 + rest.length = k + (b :: rest).length by simp; omega] at h
    by_cases hb : b = Config.unlistedByte
    · simpa [Memory.ofBytes, hb] using h
    · simp only [Memory.ofBytes, hb, if_false]
      simp only [Memory.below, List.all_cons, Bool.and_eq_true, decide_eq_true_eq]
      exact ⟨by simp, h⟩

end Sys2Proof.Machine
end

