-- ==== Sys2Proof/Laws/Ops.lean ====
section
/-!
SUPPORT. One lemma per shared operation that says everything it can do: the proofs cite these and do not unfold.
-/

namespace Sys2Proof.Machine

/-! ### the end of a body -/

@[simp] theorem finish_ok (s t : State) : finish s (.ok t) = .next t := rfl

@[simp] theorem finish_error (s : State) (c : Cause) : finish s (.error c) = .next (raise c s) := rfl

/-- A body ends in its own next state or in the fault it raised. -/
theorem finish_next {s t : State} {body : Except Cause State} (h : finish s body = .next t) :
    body = .ok t ∨ ∃ c, body = .error c ∧ t = raise c s := by
  cases body with
  | ok u => left; simpa using h
  | error c => right; exact ⟨c, rfl, by simpa using h.symm⟩

/-! ### register index fields -/

theorem regIndex_of_lt {i : Byte} {r : Fin 32} (h : i.toNat = r.val) : regIndex i = .ok r := by
  have hlt : i.toNat < 32 := h ▸ r.isLt
  simp only [regIndex, hlt, dif_pos]
  exact congrArg Except.ok (Fin.ext h)

theorem regIndex_of_ge {i : Byte} (h : 32 ≤ i.toNat) : regIndex i = .error (.registerIndexOutOfRange i) := by
  simp [regIndex, Nat.not_lt.mpr h]

/-- An index byte selects the register of its number, or faults with itself. -/
theorem regIndex_cases (i : Byte) :
    (∃ r : Fin 32, i.toNat = r.val ∧ regIndex i = .ok r) ∨
      (32 ≤ i.toNat ∧ regIndex i = .error (.registerIndexOutOfRange i)) := by
  by_cases h : i.toNat < 32
  · exact .inl ⟨⟨i.toNat, h⟩, rfl, regIndex_of_lt rfl⟩
  · exact .inr ⟨by omega, regIndex_of_ge (by omega)⟩

theorem regIndex_ok {i : Byte} {r : Fin 32} (h : regIndex i = .ok r) : i.toNat = r.val := by
  rcases regIndex_cases i with ⟨q, hq, e⟩ | ⟨_, e⟩
  · rw [e] at h; exact hq.trans (congrArg Fin.val (Except.ok.inj h))
  · rw [e] at h; cases h

theorem regsABD_of_lt {a b d : Byte} {ra rb rd : Fin 32} (ha : a.toNat = ra.val) (hb : b.toNat = rb.val)
    (hd : d.toNat = rd.val) : regsABD a b d = .ok (ra, rb, rd) := by
  simp [regsABD, regIndex_of_lt ha, regIndex_of_lt hb, regIndex_of_lt hd]

theorem regsABX_of_lt {a b : Byte} {ra rb : Fin 32} (ha : a.toNat = ra.val) (hb : b.toNat = rb.val) :
    regsABX a b = .ok (ra, rb) := by
  simp [regsABX, regIndex_of_lt ha, regIndex_of_lt hb]

/-- The three fields of ABD select registers, or the first bad one faults. -/
theorem regsABD_cases (a b d : Byte) :
    (∃ ra rb rd : Fin 32, a.toNat = ra.val ∧ b.toNat = rb.val ∧ d.toNat = rd.val ∧
        regsABD a b d = .ok (ra, rb, rd)) ∨
      (∃ j, [a, b, d].find? (fun x => decide (32 ≤ x.toNat)) = some j ∧
        regsABD a b d = .error (.registerIndexOutOfRange j)) := by
  rcases regIndex_cases a with ⟨ra, ha, ea⟩ | ⟨ha, ea⟩
  · rcases regIndex_cases b with ⟨rb, hb, eb⟩ | ⟨hb, eb⟩
    · rcases regIndex_cases d with ⟨rd, hd, ed⟩ | ⟨hd, ed⟩
      · exact .inl ⟨ra, rb, rd, ha, hb, hd, regsABD_of_lt ha hb hd⟩
      · refine .inr ⟨d, ?_, by simp [regsABD, ea, eb, ed]⟩
        simp [show ¬ 32 ≤ a.toNat by omega, show ¬ 32 ≤ b.toNat by omega, hd]
    · refine .inr ⟨b, ?_, by simp [regsABD, ea, eb]⟩
      simp [show ¬ 32 ≤ a.toNat by omega, hb]
  · exact .inr ⟨a, by simp [ha], by simp [regsABD, ea]⟩

/-- The two fields of ABX select registers, or the first bad one faults. -/
theorem regsABX_cases (a b : Byte) :
    (∃ ra rb : Fin 32, a.toNat = ra.val ∧ b.toNat = rb.val ∧ regsABX a b = .ok (ra, rb)) ∨
      (∃ j, [a, b].find? (fun x => decide (32 ≤ x.toNat)) = some j ∧
        regsABX a b = .error (.registerIndexOutOfRange j)) := by
  rcases regIndex_cases a with ⟨ra, ha, ea⟩ | ⟨ha, ea⟩
  · rcases regIndex_cases b with ⟨rb, hb, eb⟩ | ⟨hb, eb⟩
    · exact .inl ⟨ra, rb, ha, hb, regsABX_of_lt ha hb⟩
    · refine .inr ⟨b, ?_, by simp [regsABX, ea, eb]⟩
      simp [show ¬ 32 ≤ a.toNat by omega, hb]
  · exact .inr ⟨a, by simp [ha], by simp [regsABX, ea]⟩

/-! ### the ALU and the writes -/

/-- Under `wrap` the ALU's narrowing never faults and keeps the low 32 bits. -/
@[simp] theorem narrow_wrap (opcodeByte : Byte) (v : Int) : narrow .wrap opcodeByte v = .ok ⟨u32 v, none⟩ := rfl

@[simp] theorem aluDiv_zero (mode : DivOverflowMode) (b : Byte) (va : Int) :
    aluDiv mode b va 0 = .error (.divideByZero b) := by simp [aluDiv]

theorem aluDiv_quotient (mode : DivOverflowMode) (b : Byte) {va vb : Int} (h0 : vb ≠ 0)
    (h1 : ¬(va = -2147483648 ∧ vb = -1)) :
    aluDiv mode b va vb = .ok ⟨u32 (tdiv va vb), some (u32 (trem va vb))⟩ := by
  simp [aluDiv, h0, h1]

@[simp] theorem writeAlu_none (s : State) (d : Fin 32) (v : Word) :
    s.writeAlu d ⟨v, none⟩ = s.writeReg d v := rfl

@[simp] theorem writeAlu_some (s : State) (d : Fin 32) (v r : Word) :
    s.writeAlu d ⟨v, some r⟩ = (s.writeReg d v).setRem r := rfl

/-- The common body of the four arithmetic instructions, once its indices select registers. -/
theorem arithBody_of_lt (op : Int → Int → Except Cause AluResult) {a b d : Byte} {ra rb rd : Fin 32}
    (ha : a.toNat = ra.val) (hb : b.toNat = rb.val) (hd : d.toNat = rd.val) (s : State) :
    arithBody op a b d s =
      (op (s32 (s.readReg ra)) (s32 (s.readReg rb))).map fun out => (s.writeAlu rd out).continueAt (s.pc + 4) := by
  simp only [arithBody, regsABD_of_lt ha hb hd]
  cases op (s32 (s.readReg ra)) (s32 (s.readReg rb)) <;> rfl

/-- Everything the common body of the four arithmetic instructions can do. -/
theorem arithBody_cases (op : Int → Int → Except Cause AluResult) (a b d : Byte) (s : State) :
    (∃ j, [a, b, d].find? (fun x => decide (32 ≤ x.toNat)) = some j ∧
        arithBody op a b d s = .error (.registerIndexOutOfRange j)) ∨
      (∃ ra rb rd : Fin 32, a.toNat = ra.val ∧ b.toNat = rb.val ∧ d.toNat = rd.val ∧
        ((∃ c, op (s32 (s.readReg ra)) (s32 (s.readReg rb)) = .error c ∧ arithBody op a b d s = .error c) ∨
          (∃ out, op (s32 (s.readReg ra)) (s32 (s.readReg rb)) = .ok out ∧
            arithBody op a b d s = .ok ((s.writeAlu rd out).continueAt (s.pc + 4))))) := by
  rcases regsABD_cases a b d with ⟨ra, rb, rd, ha, hb, hd, e⟩ | ⟨j, hj, e⟩
  · refine .inr ⟨ra, rb, rd, ha, hb, hd, ?_⟩
    cases h : op (s32 (s.readReg ra)) (s32 (s.readReg rb)) with
    | error c => exact .inl ⟨c, rfl, by simp [arithBody, e, h]⟩
    | ok out => exact .inr ⟨out, rfl, by simp [arithBody, e, h]⟩
  · exact .inl ⟨j, hj, by simp [arithBody, e]⟩

/-! ### comparisons, jumps, Load -/

theorem compareBody_of_lt (rel : Int → Int → Bool) {a b : Byte} {ra rb : Fin 32} (ha : a.toNat = ra.val)
    (hb : b.toNat = rb.val) (s : State) :
    compareBody rel a b s =
      .ok ((s.setFlag (rel (s32 (s.readReg ra)) (s32 (s.readReg rb)))).continueAt (s.pc + 4)) := by
  simp [compareBody, regsABX_of_lt ha hb]

/-- Everything the common body of the six comparisons can do. -/
theorem compareBody_cases (rel : Int → Int → Bool) (a b : Byte) (s : State) :
    (∃ j, [a, b].find? (fun x => decide (32 ≤ x.toNat)) = some j ∧
        compareBody rel a b s = .error (.registerIndexOutOfRange j)) ∨
      (∃ ra rb : Fin 32, a.toNat = ra.val ∧ b.toNat = rb.val ∧
        compareBody rel a b s =
          .ok ((s.setFlag (rel (s32 (s.readReg ra)) (s32 (s.readReg rb)))).continueAt (s.pc + 4))) := by
  rcases regsABX_cases a b with ⟨ra, rb, ha, hb, e⟩ | ⟨j, hj, e⟩
  · exact .inr ⟨ra, rb, ha, hb, by simp [compareBody, e]⟩
  · exact .inl ⟨j, hj, by simp [compareBody, e]⟩

theorem readOperandR_of_lt {r : Byte} {q : Fin 32} (h : r.toNat = q.val) (s : State) :
    readOperandR r s = .ok (s.readReg q) := by
  simp [readOperandR, regIndex_of_lt h]

/-- Everything reading the operand of format R can do. -/
theorem readOperandR_cases (r : Byte) (s : State) :
    (32 ≤ r.toNat ∧ readOperandR r s = .error (.registerIndexOutOfRange r)) ∨
      (∃ q : Fin 32, r.toNat = q.val ∧ readOperandR r s = .ok (s.readReg q)) := by
  rcases regIndex_cases r with ⟨q, hq, e⟩ | ⟨h, e⟩
  · exact .inr ⟨q, hq, by simp [readOperandR, e]⟩
  · exact .inl ⟨h, by simp [readOperandR, e]⟩

theorem loadBody_of_lt {d : Byte} {rd : Fin 32} (h : d.toNat = rd.val) (imm : BitVec 16) (s : State) :
    loadBody d imm s = .ok (((s.writeReg rd (zext16 imm)).emit (.load imm)).continueAt (s.pc + 4)) := by
  simp [loadBody, regIndex_of_lt h]

/-- Everything Load's body can do. -/
theorem loadBody_cases (d : Byte) (imm : BitVec 16) (s : State) :
    (32 ≤ d.toNat ∧ loadBody d imm s = .error (.registerIndexOutOfRange d)) ∨
      (∃ rd : Fin 32, d.toNat = rd.val ∧
        loadBody d imm s = .ok (((s.writeReg rd (zext16 imm)).emit (.load imm)).continueAt (s.pc + 4))) := by
  rcases regIndex_cases d with ⟨rd, hd, e⟩ | ⟨h, e⟩
  · exact .inr ⟨rd, hd, by simp [loadBody, e]⟩
  · exact .inl ⟨h, by simp [loadBody, e]⟩

/-! ### the fetch unit -/

theorem State.progByte_of_lt {s : State} {k : Nat} (h : k < s.progLen) : s.progByte k = some (s.prog.read k) := by
  simp [State.progByte, h]

theorem State.progByte_of_ge {s : State} {k : Nat} (h : s.progLen ≤ k) : s.progByte k = none := by
  simp [State.progByte, Nat.not_lt.mpr h]

theorem fetchWindow_zero (s : State) (pc : Word) : fetchWindow 0 s pc = [] := rfl

theorem fetchWindow_of_some {s : State} {pc : Word} {b : Byte} (h : s.progByte pc.toNat = some b) (n : Nat) :
    fetchWindow (n + 1) s pc = b :: fetchWindow n s (pc + 1) := by
  simp [fetchWindow, fetch8, h]

theorem fetchWindow_of_none {s : State} {pc : Word} (h : s.progByte pc.toNat = none) (n : Nat) :
    fetchWindow n s pc = [] := by
  cases n with
  | zero => rfl
  | succ n => simp [fetchWindow, fetch8, h]

theorem fetchWindow_length_le (n : Nat) (s : State) (pc : Word) : (fetchWindow n s pc).length ≤ n := by
  induction n generalizing pc with
  | zero => simp [fetchWindow]
  | succ n ih =>
    cases h : s.progByte pc.toNat with
    | none => simp [fetchWindow_of_none h]
    | some b => simpa [fetchWindow_of_some h] using ih (pc + 1)

end Sys2Proof.Machine
end

