-- ==== Sys2Proof/Laws/PerInstr.lean ====
section
/-!
SUPPORT. A law of the syntax, one lemma per constructor: an encoding begins with a byte that decodes to the
instruction's opcode and has as many bytes as its format (30_encoding.md R61, R64, R72).
-/

namespace Sys2Proof.Laws.EncodingShape

/-- The first byte of a well-formed instruction's encoding decodes to its opcode, and the encoding has its length. -/
def Statement (i : Instr) : Prop :=
  i.wellFormed = true → (encode i).head?.map decodeOpcode = some i.opcode ∧ (encode i).length = i.length

theorem halt : Statement .halt := fun _ => ⟨rfl, rfl⟩
theorem load (d : Byte) (imm : BitVec 16) : Statement (.load d imm) := fun _ => ⟨rfl, rfl⟩
theorem add (a b d : Byte) : Statement (.add a b d) := fun _ => ⟨rfl, rfl⟩
theorem sub (a b d : Byte) : Statement (.sub a b d) := fun _ => ⟨rfl, rfl⟩
theorem mul (a b d : Byte) : Statement (.mul a b d) := fun _ => ⟨rfl, rfl⟩
theorem div (a b d : Byte) : Statement (.div a b d) := fun _ => ⟨rfl, rfl⟩
theorem jump (r : Byte) : Statement (.jump r) := fun _ => ⟨rfl, rfl⟩
theorem jumpForward (r : Byte) : Statement (.jumpForward r) := fun _ => ⟨rfl, rfl⟩
theorem equal (a b pad : Byte) : Statement (.equal a b pad) := fun _ => ⟨rfl, rfl⟩
theorem notEqual (a b pad : Byte) : Statement (.notEqual a b pad) := fun _ => ⟨rfl, rfl⟩
theorem greaterThan (a b pad : Byte) : Statement (.greaterThan a b pad) := fun _ => ⟨rfl, rfl⟩
theorem lessThan (a b pad : Byte) : Statement (.lessThan a b pad) := fun _ => ⟨rfl, rfl⟩
theorem greaterOrEqual (a b pad : Byte) : Statement (.greaterOrEqual a b pad) := fun _ => ⟨rfl, rfl⟩
theorem lessOrEqual (a b pad : Byte) : Statement (.lessOrEqual a b pad) := fun _ => ⟨rfl, rfl⟩
theorem jumpIfEqual (r : Byte) : Statement (.jumpIfEqual r) := fun _ => ⟨rfl, rfl⟩
theorem illegalOpcode (op : Byte) : Statement (.illegalOpcode op) := by
  intro h
  have h' : 15 ≤ op.toNat := by simpa [Instr.wellFormed] using h
  refine ⟨?_, rfl⟩
  have : ∀ b : Byte, 15 ≤ b.toNat → decodeOpcode b = .illegalOpcode := by decide
  simpa [encode, Instr.opcode] using this op h'

end Sys2Proof.Laws.EncodingShape
end

