-- ==== Sys2Proof/Laws/Pseudocode.lean ====
section
/-!
SUPPORT. What each primitive of the transcribed pseudocode gives when it is run on a state, so that a proof about
`Pseudo.Step` rewrites with these and never unfolds the monad.
-/

namespace Sys2Proof.Machine.Pseudo

theorem bind_run {α β : Type} (x : Code α) (f : α → Code β) (s : State) :
    (x >>= f) s = match x s with | .error c => .error c | .ok (a, t) => f a t := by
  show StateT.bind x f s = _
  unfold StateT.bind
  cases x s <;> rfl

theorem pure_run {α : Type} (a : α) (s : State) : (pure a : Code α) s = .ok (a, s) := rfl

theorem get_run (s : State) : (get : Code State) s = .ok (s, s) := rfl

theorem modify_run (f : State → State) (s : State) : (modify f : Code PUnit) s = .ok (⟨⟩, f s) := rfl

theorem raiseFault_run {α : Type} (c : Cause) (s : State) : (raiseFault c : Code α) s = .error c := rfl

/-- `Fetch8` gives the byte at `pc` and moves `pc`, or faults with the offset of the missing byte. -/
theorem Fetch8_run (s : State) : Fetch8 s =
    match s.progByte s.pc.toNat with
    | none => .error (.fetchOverrun s.pc)
    | some b => .ok (b, s.setPc (s.pc + 1)) := by
  by_cases h : s.progLen ≤ s.pc.toNat
  · rw [State.progByte_of_ge h, Fetch8, bind_run, get_run]
    simp [h, raiseFault_run]
  · rw [State.progByte_of_lt (by omega), Fetch8, bind_run, get_run]
    simp only [h, if_false]
    rfl

/-- `Fetch16` gives the two bytes at `pc`, the first as the high half. -/
theorem Fetch16_run (s : State) : Fetch16 s =
    match s.progByte s.pc.toNat with
    | none => .error (.fetchOverrun s.pc)
    | some hi =>
      match s.progByte (s.pc + 1).toNat with
      | none => .error (.fetchOverrun (s.pc + 1))
      | some lo => .ok (bigEndian16 hi lo, s.setPc (s.pc + 2)) := by
  have e : ∀ hi lo : Byte, BitVec.ofNat 16 (hi.toNat * 256 + lo.toNat) = bigEndian16 hi lo := by
    intro hi lo
    rw [← bigEndian16_toNat]
    simp
  rw [Fetch16, bind_run, Fetch8_run]
  cases s.progByte s.pc.toNat with
  | none => rfl
  | some hi =>
    simp only [bind_run, Fetch8_run, State.setPc_progByte, State.setPc_pc]
    cases s.progByte (s.pc + 1).toNat with
    | none => rfl
    | some lo =>
      simp only [pure_run, e]
      rw [show s.pc + 2 = s.pc + 1 + 1 by rw [BitVec.add_assoc]; rfl]
      rfl

/-- `Reg(i)` reads the register the index selects, or faults with the index. -/
theorem Reg_run (i : Byte) (s : State) : Reg i s =
    match regIndex i with
    | .error c => .error c
    | .ok r => .ok (s32 (s.readReg r), s) := by
  by_cases h : i.toNat < 32
  · simp only [Reg, regIndex, h, dif_pos]
    rfl
  · simp only [Reg, regIndex, h, dif_neg, not_false_eq_true]
    rfl

/-- `SetReg(i, v)` writes the 32-bit pattern of `v` to the register the index selects, or faults with the index. -/
theorem SetReg_run (i : Byte) (v : Int) (s : State) : SetReg i v s =
    match regIndex i with
    | .error c => .error c
    | .ok r => .ok (⟨⟩, s.writeReg r (u32 v)) := by
  by_cases h : i.toNat < 32
  · simp only [SetReg, regIndex, h, dif_pos]
    rfl
  · simp only [SetReg, regIndex, h, dif_neg, not_false_eq_true]
    rfl

/-- The signed reading of a pattern goes back to the pattern (00_scope.md R8). -/
theorem u32_s32 (w : Word) : u32 (s32 w) = w := by simp [u32, s32]

end Sys2Proof.Machine.Pseudo
end

