-- ==== Sys2Proof/Laws/Step.lean ====
section
/-!
SUPPORT. Everything one step can do, said once, and what the host operations do.
-/

namespace Sys2Proof.Machine

/-! ### the step -/

theorem step_of_faulted {s : State} (h : s.isFaulted = true) : step s = .next s := by
  simp [step, h]

theorem step_of_exhausted {s : State} (h : s.isFaulted = false) (hpc : s.progLen ≤ s.pc.toNat) :
    step s = .next (stopExhausted s) := by
  simp [step, h, State.exhausted, hpc]

theorem step_of_fetched {s : State} {i : Instr} (h : s.isFaulted = false) (hpc : s.pc.toNat < s.progLen)
    (hi : fetchInstr s = .ok i) : step s = exec i s := by
  simp [step, h, State.exhausted, hi, Nat.not_le.mpr hpc]

theorem step_of_overrun {s : State} {c : Cause} (h : s.isFaulted = false) (hpc : s.pc.toNat < s.progLen)
    (hc : fetchInstr s = .error c) : step s = .next (raise c s) := by
  simp [step, h, State.exhausted, hc, Nat.not_le.mpr hpc]

/-- The five ways a step goes: nothing in `Faulted`, a stop at the end of the buffer, an instruction cut short, or the
instruction at `pc`. -/
theorem step_cases {s t : State} (h : step s = .next t) :
    (s.isFaulted = true ∧ t = s) ∨
      (s.isFaulted = false ∧ s.progLen ≤ s.pc.toNat ∧ t = stopExhausted s) ∨
      (s.isFaulted = false ∧ s.pc.toNat < s.progLen ∧
        ((∃ c, fetchInstr s = .error c ∧ t = raise c s) ∨ ∃ i, fetchInstr s = .ok i ∧ exec i s = .next t)) := by
  cases hf : s.isFaulted with
  | true =>
    rw [step_of_faulted hf] at h
    exact .inl ⟨rfl, by injection h with h; exact h.symm⟩
  | false =>
    by_cases hpc : s.progLen ≤ s.pc.toNat
    · rw [step_of_exhausted hf hpc] at h
      exact .inr (.inl ⟨rfl, hpc, by injection h with h; exact h.symm⟩)
    · have hpc' : s.pc.toNat < s.progLen := by omega
      refine .inr (.inr ⟨rfl, hpc', ?_⟩)
      cases hi : fetchInstr s with
      | error c =>
        rw [step_of_overrun hf hpc' hi] at h
        exact .inl ⟨c, rfl, by injection h with h; exact h.symm⟩
      | ok i => exact .inr ⟨i, rfl, by rwa [step_of_fetched hf hpc' hi] at h⟩

/-- The fetch unit faults with nothing but FetchOverrun. -/
theorem fetchInstr_error {s : State} {c : Cause} (h : fetchInstr s = .error c) : ∃ o, c = .fetchOverrun o := by
  unfold fetchInstr at h
  split at h <;> cases h <;> exact ⟨_, rfl⟩

/-- What was fetched is what the decoder reads from the bytes at `pc`. -/
theorem fetchInstr_ok {s : State} {i : Instr} (h : fetchInstr s = .ok i) :
    decode (fetchWindow maxInstrLength s s.pc) = .ok i := by
  unfold fetchInstr at h
  split at h
  · cases h; assumption
  · cases h
  · cases h

/-! ### the host operations -/

/-- The three ways LoadProgram goes. -/
theorem loadProgram_cases (bytes : List Byte) (s : State) :
    (s.isFaulted = true ∧ loadProgram bytes s = .refused .loadProgramInFaulted) ∨
      (s.isFaulted = false ∧ Config.progMax < bytes.length ∧
        loadProgram bytes s = .refused .loadProgramTooLong) ∨
      (s.isFaulted = false ∧ bytes.length ≤ Config.progMax ∧
        loadProgram bytes s =
          .next ((s.setProgram (Memory.ofBytes 0 bytes) bytes.length).setStatus .running)) := by
  cases hf : s.isFaulted with
  | true => exact .inl ⟨rfl, by simp [loadProgram, hf]⟩
  | false =>
    by_cases hl : Config.progMax < bytes.length
    · exact .inr (.inl ⟨rfl, hl, by simp [loadProgram, hf, hl]⟩)
    · exact .inr (.inr ⟨rfl, by omega, by simp [loadProgram, hf, hl]⟩)

/-- The three ways Poke goes. -/
theorem poke_cases (target : PokeTarget) (v : Word) (s : State) :
    (s.isFaulted = true ∧ poke target v s = .refused .pokeInFaulted) ∨
      (s.isFaulted = false ∧
        ((∃ r, target = .reg r ∧ poke target v s = .next (s.writeReg r v)) ∨
          (target = .pc ∧ poke target v s = .next (s.setPc v)))) := by
  cases hf : s.isFaulted with
  | true => exact .inl ⟨rfl, by simp [poke, hf]⟩
  | false =>
    refine .inr ⟨rfl, ?_⟩
    cases target with
    | reg r => exact .inl ⟨r, rfl, by simp [poke, hf]⟩
    | pc => exact .inr ⟨rfl, by simp [poke, hf]⟩

end Sys2Proof.Machine
end

