-- ==== Sys2Proof/Tests/Slice0.lean ====
section
/-!
SUPPORT. The tests of the model, and one witness for every statement that has hypotheses.
Expected values of the tests are those of spec/95_test_vectors.md; the id of a vector stands in its test's comment.
-/

open Sys2Proof Sys2Proof.Machine

namespace Sys2Proof.Tests

/-! ### Helpers -/

/-- Reset, then LoadProgram of these bytes (95_test_vectors.md, conventions). -/
def loaded (bytes : List Byte) : State := State.reset.setProgram (Memory.ofBytes 0 bytes) bytes.length

/-- The same with x[0] and x[1] preloaded. -/
def loaded2 (bytes : List Byte) (v0 v1 : Int) : State := ((loaded bytes).writeReg 0 (u32 v0)).writeReg 1 (u32 v1)

/-- One thing about the next state. -/
def nextSee {α : Type} (f : State → α) (o : Host.Outcome State Fault Refusal) : Option α :=
  match o with
  | .next t => some (f t)
  | .fault _ | .refused _ => none

/-- Register q read as a signed number, and the counter. -/
def regPc (q : Fin 32) (s : State) : Int × Word := (s32 (s.readReg q), s.pc)

/-- Register 2 read as a signed number, and the remainder register. -/
def quotRem (s : State) : Int × Nat := (s32 (s.readReg 2), s.rem.toNat)

/-- The flag and the counter. -/
def flagPc (s : State) : Bool × Word := (s.flag, s.pc)

/-- The status and the counter. -/
def statusPc (s : State) : Status × Word := (s.status, s.pc)

/-! ### WellFormed: the one check, and what it does not refuse -/

theorem test_wellFormed_refuses_illegal_below_15 : (Instr.illegalOpcode 14).wellFormed = false := by decide
theorem test_wellFormed_refuses_illegal_0 : (Instr.illegalOpcode 0).wellFormed = false := by decide
theorem test_wellFormed_takes_illegal_15 : (Instr.illegalOpcode 15).wellFormed = true := by decide
theorem test_wellFormed_takes_index_255 : (Instr.add 255 255 255).wellFormed = true := by decide

/-! ### Decode: a word of every row, written out from 30_encoding.md sections 2 and 4 -/

theorem test_decode_halt : decode [0b00000000#8] = .ok .halt := by decide
theorem test_decode_load : decode [0b00000001#8, 0b00000101#8, 0b10000000#8, 0b00000001#8] = .ok (.load 5 32769) := by
  decide
theorem test_decode_add : decode [0b00000010#8, 0b00000001#8, 0b00000010#8, 0b00000100#8] = .ok (.add 1 2 4) := by
  decide
theorem test_decode_sub : decode [0b00000011#8, 0b00000001#8, 0b00000010#8, 0b00000100#8] = .ok (.sub 1 2 4) := by
  decide
theorem test_decode_mul : decode [0b00000100#8, 0b00000001#8, 0b00000010#8, 0b00000100#8] = .ok (.mul 1 2 4) := by
  decide
theorem test_decode_div : decode [0b00000101#8, 0b00000001#8, 0b00000010#8, 0b11111111#8] = .ok (.div 1 2 255) := by
  decide
theorem test_decode_jump : decode [0b00000110#8, 0b00011111#8] = .ok (.jump 31) := by decide
theorem test_decode_jumpForward : decode [0b00000111#8, 0b00011111#8] = .ok (.jumpForward 31) := by decide
theorem test_decode_equal : decode [0b00001000#8, 0b00000001#8, 0b00000010#8, 0b01001101#8] = .ok (.equal 1 2 77) := by
  decide
theorem test_decode_notEqual : decode [0b00001001#8, 0b00000001#8, 0b00000010#8, 0#8] = .ok (.notEqual 1 2 0) := by
  decide
theorem test_decode_greaterThan :
    decode [0b00001010#8, 0b00000001#8, 0b00000010#8, 0#8] = .ok (.greaterThan 1 2 0) := by decide
theorem test_decode_lessThan : decode [0b00001011#8, 0b00000001#8, 0b00000010#8, 0#8] = .ok (.lessThan 1 2 0) := by
  decide
theorem test_decode_greaterOrEqual :
    decode [0b00001100#8, 0b00000001#8, 0b00000010#8, 0#8] = .ok (.greaterOrEqual 1 2 0) := by decide
theorem test_decode_lessOrEqual :
    decode [0b00001101#8, 0b00000001#8, 0b00000010#8, 0#8] = .ok (.lessOrEqual 1 2 0) := by decide
theorem test_decode_jumpIfEqual : decode [0b00001110#8, 0b00000001#8] = .ok (.jumpIfEqual 1) := by decide
theorem test_decode_illegal_15 : decode [0b00001111#8] = .ok (.illegalOpcode 15) := by decide
theorem test_decode_illegal_255 : decode [0b11111111#8, 0#8] = .ok (.illegalOpcode 255) := by decide

theorem test_decode_no_byte : decode [] = .noOpcodeByte := by decide
theorem test_decode_cut_short : decode [2, 1, 2] = .operandMissing .add 3 := by decide

/-- Byte 1 of the instruction is bits 15 to 8 of the table's word. -/
theorem test_decodeTableWord : decodeTableWord 32 0xF4010001 = some (.load 0 500) := by decide
/-- The bits above `nbits` are zero: the operands of this row are zero bytes. -/
theorem test_decodeTableWord_short : decodeTableWord 8 0xFFFFFF0E = some (.jumpIfEqual 0) := by decide

/-! ### One step -/

/-- S2 -/
theorem test_halt : nextSee statusPc (step (loaded [0, 0, 0, 0])) = some (.halted, 1) := by decide
/-- D-H5: a step after a stop -/
theorem test_halt_again :
    nextSee statusPc (step (((loaded [0, 0, 0, 0]).setPc 1).setStatus .halted)) = some (.halted, 2) := by decide
/-- S3 -/
theorem test_illegal : nextSee statusPc (step (loaded [200, 0, 0, 0])) = some (.running, 1) := by decide
/-- D-H2, second step -/
theorem test_exhausted : nextSee statusPc (step ((loaded [15]).setPc 1)) = some (.halted, 1) := by decide
/-- S4 and D-L5: the upper half is cleared -/
theorem test_load_clears_upper_half :
    nextSee (regPc 0) (step ((loaded [1, 0, 1, 244]).writeReg 0 0xFFFFFFFF)) = some (500, 4) := by decide
/-- D-L2: zero extension -/
theorem test_load_unsigned : nextSee (regPc 5) (step (loaded [1, 5, 255, 255])) = some (65535, 4) := by decide
/-- D-L9: FetchOverrun before RegisterIndexOutOfRange -/
theorem test_load_cut_short :
    nextSee statusPc (step (loaded [1, 40, 0])) = some (.faulted (.fetchOverrun 3) 0, 0) := by decide
/-- S5 -/
theorem test_add_registers : nextSee (regPc 0) (step (loaded2 [2, 0, 1, 0] 255 2)) = some (257, 4) := by decide
/-- D-A11 -/
theorem test_add_wraps :
    nextSee (regPc 2) (step (loaded2 [2, 0, 1, 2] 2147483647 1)) = some (-2147483648, 4) := by decide
/-- D-A3 -/
theorem test_sub_order : nextSee (regPc 2) (step (loaded2 [3, 0, 1, 2] 3 5)) = some (-2, 4) := by decide
/-- D-A12 -/
theorem test_sub_wraps :
    nextSee (regPc 2) (step (loaded2 [3, 0, 1, 2] (-2147483648) 1)) = some (2147483647, 4) := by decide
/-- D-A5 -/
theorem test_mul_signed : nextSee (regPc 2) (step (loaded2 [4, 0, 1, 2] (-5) 2)) = some (-10, 4) := by decide
/-- D-A15 -/
theorem test_mul_wraps : nextSee (regPc 2) (step (loaded2 [4, 0, 1, 2] 65535 65535)) = some (-131071, 4) := by decide
/-- D-A8 -/
theorem test_div_rounds_to_zero :
    nextSee quotRem (step (loaded2 [5, 0, 1, 2] (-7) 2)) = some (-3, 4294967295) := by decide
/-- D-A31: a bad index before DivideByZero -/
theorem test_div_priority :
    nextSee statusPc (step (loaded2 [5, 0, 1, 99] 7 0)) =
      some (.faulted (.registerIndexOutOfRange 99) 0, 0) := by decide
/-- S7 -/
theorem test_jump : nextSee statusPc (step (loaded2 [6, 1, 0, 0] 0 1)) = some (.running, 1) := by decide
/-- D-J3, first step -/
theorem test_jump_negative : nextSee statusPc (step (loaded2 [6, 0, 0, 0] (-1) 0)) = some (.running, 4294967295) := by
  decide
/-- D-J7, first step: backwards -/
theorem test_jumpForward_back :
    nextSee statusPc (step ((loaded2 [0, 0, 0, 0, 7, 0, 0, 0] (-6) 0).setPc 4)) = some (.running, 0) := by decide
/-- D-J10, first step -/
theorem test_jumpForward_wraps :
    nextSee statusPc (step (loaded2 [7, 0] (-2147483648) 0)) = some (.running, 2147483650) := by decide
/-- S9a -/
theorem test_equal_true : nextSee flagPc (step (loaded2 [8, 0, 1, 0] 1 1)) = some (true, 4) := by decide
/-- D-K9: the discarded byte is no index -/
theorem test_equal_pad : nextSee flagPc (step (loaded2 [8, 0, 1, 77] 3 3)) = some (true, 4) := by decide
/-- D-K1, the flag set before -/
theorem test_notEqual_clears :
    nextSee flagPc (step ((loaded2 [9, 0, 1, 0] 1 1).setFlag true)) = some (false, 4) := by decide
/-- D-K10: the discarded byte must be there -/
theorem test_notEqual_cut_short :
    nextSee statusPc (step (loaded [9, 0, 1])) = some (.faulted (.fetchOverrun 3) 0, 0) := by decide
/-- D-K8 -/
theorem test_greaterThan_signed : nextSee flagPc (step (loaded2 [10, 0, 1, 0] 65535 (-131071))) = some (true, 4) := by
  decide
/-- D-K1 -/
theorem test_greaterThan_strict :
    nextSee flagPc (step ((loaded2 [10, 0, 1, 0] 1 1).setFlag true)) = some (false, 4) := by decide
/-- D-K7 -/
theorem test_lessThan_signed :
    nextSee flagPc (step (loaded2 [11, 0, 1, 0] (-2147483648) 2147483647)) = some (true, 4) := by decide
/-- D-K1 -/
theorem test_lessThan_strict :
    nextSee flagPc (step ((loaded2 [11, 0, 1, 0] 1 1).setFlag true)) = some (false, 4) := by decide
/-- D-K1 -/
theorem test_greaterOrEqual_equal : nextSee flagPc (step (loaded2 [12, 0, 1, 0] 1 1)) = some (true, 4) := by decide
/-- D-K5 -/
theorem test_greaterOrEqual_signed :
    nextSee flagPc (step ((loaded2 [12, 0, 1, 0] (-1) 0).setFlag true)) = some (false, 4) := by decide
/-- D-K1 -/
theorem test_lessOrEqual_equal : nextSee flagPc (step (loaded2 [13, 0, 1, 0] 1 1)) = some (true, 4) := by decide
/-- D-K6 -/
theorem test_lessOrEqual_signed :
    nextSee flagPc (step ((loaded2 [13, 0, 1, 0] 0 (-1)).setFlag true)) = some (false, 4) := by decide
/-- D-C1, first step: taken, the flag kept -/
theorem test_jumpIfEqual_taken :
    nextSee flagPc (step ((loaded2 [14, 1, 0, 0, 0] 0 4).setFlag true)) = some (true, 4) := by decide
/-- D-C4: the index is checked though the jump is not taken -/
theorem test_jumpIfEqual_bad_index :
    nextSee statusPc (step (loaded [14, 40])) = some (.faulted (.registerIndexOutOfRange 40) 0, 0) := by decide

/-- A placed word is run by the next step; the word is S4's. -/
theorem test_withFetchWord :
    nextSee (regPc 0) (step (State.reset.withFetchWord 32 0xF4010001)) = some (500, 4) := by decide

/-! ### Witnesses: for each statement with hypotheses, inputs that meet all of them, at the ends of the ranges -/

/-- Running, x[0] = -7, x[31] = 2, flag true, pc at the last instruction of a buffer of PROG_MAX bytes, which ends in
the four bytes given. -/
def full (b0 b1 b2 b3 : Byte) : State :=
  (((((State.reset.setProgram (Memory.ofBytes 2147483644 [b0, b1, b2, b3]) 2147483648).setPc
    2147483644).writeReg 0 (u32 (-7))).writeReg 31 2).setFlag true).emit (.load 1)

/-- The same set to `Faulted` by a Div by zero at its opcode byte. -/
def faultedState : State := raise (.divideByZero 1) (full 5 0 1 2)

theorem witness_OpcodeByteTable : (15 : Nat) ≤ (15#8).toNat ∧ (15 : Nat) ≤ (255#8).toNat := by decide

theorem witness_DecodeOfEncodeIsTheInstruction :
    (Instr.illegalOpcode 15).wellFormed = true ∧ (Instr.illegalOpcode 255).wellFormed = true ∧
      (Instr.load 255 65535).wellFormed = true ∧ (Instr.equal 0 255 77).wellFormed = true := by decide

theorem witness_EncodeOfDecodeIsTheBytesRead :
    decode [1, 255, 255, 255] = .ok (.load 255 65535) ∧ decode [15, 3] = .ok (.illegalOpcode 15) := by decide

theorem witness_StepRunsTheDecodedInstruction :
    (full 5 0 31 2).isFaulted = false ∧ (full 5 0 31 2).pc.toNat < (full 5 0 31 2).progLen ∧
      decode (fetchWindow maxInstrLength (full 5 0 31 2) (full 5 0 31 2).pc) = .ok (.div 0 31 2) := by decide

theorem witness_EncodedInstructionInTheBufferIsRun :
    (full 5 1 31 2).progLen ≤ Config.progMax ∧ (full 5 1 31 2).isFaulted = false ∧
      (Instr.div 1 31 2).wellFormed = true ∧
      ∀ (k : Nat) (h : k < (encode (.div 1 31 2)).length),
        (full 5 1 31 2).progByte ((full 5 1 31 2).pc.toNat + k) = some (encode (.div 1 31 2))[k] := by decide

theorem witness_StepNeverChangesTheProgram :
    step (full 6 0 0 0) = .next ((full 6 0 0 0).setPc 4294967289) := rfl

theorem witness_PlacedWordIsTheOneTheStepRuns :
    (full 9 9 9 9).prog.wf = true ∧ faultedState.prog.wf = true ∧ (full 9 9 9 9).isFaulted = false ∧
      decodeTableWord 32 0x021F0105 = some (.div 1 31 2) ∧ decodeTableWord 8 15 = some (.illegalOpcode 15) := by
  decide

theorem witness_HaltStopsAfterItsByte :
    (loaded [0]).isFaulted = false ∧ (loaded [0]).progByte (loaded [0]).pc.toNat = some 0 := by decide

theorem witness_IllegalOpcodeSkipsOneByte :
    (15 : Nat) ≤ (15#8).toNat ∧ (loaded [15]).isFaulted = false ∧
      (loaded [15]).progByte (loaded [15]).pc.toNat = some 15 ∧ (15 : Nat) ≤ (255#8).toNat ∧
      (loaded [255]).progByte (loaded [255]).pc.toNat = some 255 := by decide

theorem witness_LoadCompletes : (0#8).toNat = (0 : Fin 32).val ∧ (31#8).toNat = (31 : Fin 32).val := by decide

theorem witness_LoadedImmediateIsBigEndianAndUnsigned :
    (full 1 31 255 255).progLen ≤ Config.progMax ∧ (full 1 31 255 255).isFaulted = false ∧
      (full 1 31 255 255).progByte (full 1 31 255 255).pc.toNat = some 1 ∧
      (full 1 31 255 255).progByte ((full 1 31 255 255).pc.toNat + 1) = some 31 ∧
      (full 1 31 255 255).progByte ((full 1 31 255 255).pc.toNat + 2) = some 255 ∧
      (full 1 31 255 255).progByte ((full 1 31 255 255).pc.toNat + 3) = some 255 ∧
      (31#8).toNat = (31 : Fin 32).val ∧ (Instr.equal 0 31 255).opcode ≠ .load := by decide

theorem witness_AddSubMulComplete :
    (31#8).toNat = (31 : Fin 32).val ∧ (0#8).toNat = (0 : Fin 32).val := by decide

/-- The dividend -2^31 with divisor 1, and the divisor -1 with another dividend. -/
theorem witness_DivCompletes :
    (0#8).toNat = (0 : Fin 32).val ∧ (1#8).toNat = (1 : Fin 32).val ∧ (31#8).toNat = (31 : Fin 32).val ∧
      s32 ((loaded2 [] (-2147483648) 1).readReg 1) ≠ 0 ∧
      ¬(s32 ((loaded2 [] (-2147483648) 1).readReg 0) = -2147483648 ∧
        s32 ((loaded2 [] (-2147483648) 1).readReg 1) = -1) ∧
      s32 ((loaded2 [] (-2147483647) (-1)).readReg 1) ≠ 0 ∧
      ¬(s32 ((loaded2 [] (-2147483647) (-1)).readReg 0) = -2147483648 ∧
        s32 ((loaded2 [] (-2147483647) (-1)).readReg 1) = -1) := by decide

/-- A negative dividend with a remainder. -/
theorem witness_DivisionIdentity :
    (0#8).toNat = (0 : Fin 32).val ∧ (1#8).toNat = (1 : Fin 32).val ∧ (31#8).toNat = (31 : Fin 32).val ∧
      s32 ((loaded2 [] (-7) 2).readReg 1) ≠ 0 ∧
      ¬(s32 ((loaded2 [] (-7) 2).readReg 0) = -2147483648 ∧ s32 ((loaded2 [] (-7) 2).readReg 1) = -1) := by decide

theorem witness_DivFaults :
    (0#8).toNat = (0 : Fin 32).val ∧ (1#8).toNat = (1 : Fin 32).val ∧ (31#8).toNat = (31 : Fin 32).val ∧
      s32 ((loaded2 [] 7 0).readReg 1) = 0 ∧
      s32 ((loaded2 [] (-2147483648) (-1)).readReg 0) = -2147483648 ∧
      s32 ((loaded2 [] (-2147483648) (-1)).readReg 1) = -1 := by decide

theorem witness_OtherOverflowModes :
    (-2147483648 ≤ (-2147483648 : Int) ∧ (-2147483648 : Int) ≤ 2147483647) ∧
      (-2147483648 ≤ (2147483647 : Int) ∧ (2147483647 : Int) ≤ 2147483647) ∧
      ¬(-2147483648 ≤ (2147483648 : Int) ∧ (2147483648 : Int) ≤ 2147483647) ∧
      ¬(-2147483648 ≤ (-2147483649 : Int) ∧ (-2147483649 : Int) ≤ 2147483647) := by decide

theorem witness_JumpCompletes : (0#8).toNat = (0 : Fin 32).val ∧ (31#8).toNat = (31 : Fin 32).val := by decide
theorem witness_JumpForwardCompletes : (0#8).toNat = (0 : Fin 32).val ∧ (31#8).toNat = (31 : Fin 32).val := by decide
theorem witness_JumpIfEqualCompletes :
    (31#8).toNat = (31 : Fin 32).val ∧ (full 14 31 0 0).flag = true ∧ (loaded [14, 31]).flag = false := by decide
theorem witness_ComparisonsComplete :
    (0#8).toNat = (0 : Fin 32).val ∧ (31#8).toNat = (31 : Fin 32).val := by decide
theorem witness_ComparisonLaws : (0#8).toNat = (0 : Fin 32).val ∧ (31#8).toNat = (31 : Fin 32).val := by decide

theorem witness_PcAfterEachInstruction :
    nextSee State.isFaulted (exec .halt (full 0 0 0 0)) = some false ∧
      nextSee State.isFaulted (exec (.illegalOpcode 15) (full 15 0 0 0)) = some false ∧
      nextSee State.isFaulted (exec (.load 31 65535) (full 1 31 255 255)) = some false ∧
      nextSee State.isFaulted (exec (.div 0 31 31) (full 5 0 31 31)) = some false ∧
      nextSee State.isFaulted (exec (.lessOrEqual 0 31 255) (full 13 0 31 255)) = some false ∧
      nextSee State.isFaulted (exec (.jump 31) (full 6 31 0 0)) = some false ∧
      nextSee State.isFaulted (exec (.jumpForward 0) (full 7 0 0 0)) = some false ∧
      nextSee State.isFaulted (exec (.jumpIfEqual 0) (full 14 0 0 0)) = some false ∧
      nextSee State.isFaulted (exec (.jumpIfEqual 0) ((full 14 0 0 0).setFlag false)) = some false := by decide

theorem witness_OnlyHaltReportsStop :
    nextSee (fun t => (t.isFaulted, t.report)) (exec .halt (full 0 0 0 0)) = some (false, false) ∧
      nextSee (fun t => (t.isFaulted, t.report)) (exec (.jump 0) (full 6 0 0 0)) = some (false, true) := by decide

/-- The target of a Jump is N itself in the last clause, and N - 1 is not caught. -/
theorem witness_JumpTargetsAreNotChecked :
    (1#8).toNat = (1 : Fin 32).val ∧ ((loaded2 [14, 1] 0 2).setFlag true).flag = true ∧
      nextSee (fun t => (decide (t.progLen ≤ t.pc.toNat), t.status)) (exec (.jump 1) (loaded2 [6, 1] 0 2)) =
        some (true, .running) ∧
      nextSee (fun t => decide (t.progLen ≤ t.pc.toNat)) (exec (.jump 1) (loaded2 [6, 1] 0 1)) = some false := by
  decide

/-- The registers -1 and -2^31; a JumpForward at the last two bytes of the buffer, to -1 and to N. -/
theorem witness_TargetsOutOfRangeEndTheRun :
    (loaded2 [6, 0] (-1) 0).progLen ≤ Config.progMax ∧ (full 6 0 0 0).progLen ≤ Config.progMax ∧
      (0#8).toNat = (0 : Fin 32).val ∧ s32 ((loaded2 [6, 0] (-1) 0).readReg 0) < 0 ∧
      s32 ((loaded2 [14, 0] (-2147483648) 0).readReg 0) < 0 ∧
      ((loaded2 [14, 0] (-2147483648) 0).setFlag true).flag = true ∧
      (loaded2 [7, 0] (-3) 0).pc.toNat + 2 ≤ (loaded2 [7, 0] (-3) 0).progLen ∧
      ((loaded2 [7, 0] (-3) 0).pc.toNat : Int) + 2 + s32 ((loaded2 [7, 0] (-3) 0).readReg 0) < 0 ∧
      ((loaded2 [7, 0] 0 0).progLen : Int) ≤
        ((loaded2 [7, 0] 0 0).pc.toNat : Int) + 2 + s32 ((loaded2 [7, 0] 0 0).readReg 0) := by decide

theorem witness_ArithmeticFrame :
    (Instr.add 0 31 31).opcode.format = .abd ∧ (Instr.add 0 31 31).opcode ≠ .div ∧
      destReg (.add 0 31 31) ≠ some 0 ∧
      nextSee (regPc 31) (exec (.add 0 31 31) (full 2 0 31 31)) = some (-5, 2147483648) ∧
      (Instr.div 0 31 0).opcode.format = .abd ∧ destReg (.div 0 31 0) ≠ some 31 ∧
      nextSee (regPc 0) (exec (.div 0 31 0) (full 5 0 31 0)) = some (-3, 2147483648) := by decide

theorem witness_LoadFrame :
    (31#8).toNat ≠ (0 : Fin 32).val ∧
      nextSee (regPc 31) (exec (.load 31 65535) (full 1 31 255 255)) = some (65535, 2147483648) := by decide

theorem witness_ComparisonAndJumpFrame :
    (Instr.equal 0 31 255).opcode.format = .abx ∧
      nextSee flagPc (exec (.equal 0 31 255) (full 8 0 31 255)) = some (false, 2147483648) ∧
      (Instr.jumpIfEqual 31).opcode.format = .r ∧
      nextSee flagPc (exec (.jumpIfEqual 31) (full 14 31 0 0)) = some (true, 2) := by decide

theorem witness_HaltAndIllegalOpcodeFrame :
    Instr.halt.opcode.format = .z ∧ nextSee statusPc (exec .halt (full 0 0 0 0)) = some (.halted, 2147483645) ∧
      (Instr.illegalOpcode 255).opcode.format = .z ∧
      nextSee statusPc (exec (.illegalOpcode 255) (full 255 0 0 0)) = some (.running, 2147483645) := by decide

theorem witness_FlagIsWrittenByComparisonsAndReadByJumpIfEqual :
    (Instr.mul 0 31 31).opcode.format ≠ .abx ∧ (Instr.mul 0 31 31).opcode ≠ .jumpIfEqual ∧
      nextSee flagPc (exec (.mul 0 31 31) (full 4 0 31 31)) = some (true, 2147483648) ∧
      (Instr.lessThan 0 31 255).opcode.format = .abx ∧ firstBadIndex (.lessThan 0 31 255) = none ∧
      (31#8).toNat = (31 : Fin 32).val := by decide

theorem witness_RemainderIsWrittenByDivAndReadByNone :
    (Instr.add 0 31 2).opcode ≠ .div ∧
      nextSee (fun t => (t.rem, t.isFaulted)) (exec (.add 0 31 2) (full 2 0 31 2)) = some (0, false) ∧
      nextSee (fun t => (t.rem, t.isFaulted)) (exec (.div 0 1 2) (full 5 0 1 2)) = some (0, true) ∧
      nextSee (fun t => (t.rem, t.isFaulted)) (exec (.div 0 31 2) (full 5 0 31 2)) = some (4294967295, false) ∧
      (0#8).toNat = (0 : Fin 32).val ∧ (31#8).toNat = (31 : Fin 32).val := by decide

theorem witness_OnlyTheDestinationRegisterChanges :
    destReg (.load 31 65535) ≠ some 0 ∧ destReg (.jump 31) ≠ some 31 ∧
      nextSee (regPc 0) (exec (.load 31 65535) (full 1 31 255 255)) = some (-7, 2147483648) ∧
      nextSee (regPc 31) (exec (.jump 31) (full 6 31 0 0)) = some (2, 2) := by decide

theorem witness_RegistersNotNamedDoNotMatter :
    (∀ b ∈ indexFields (.add 0 31 31), b.toNat ≠ (1 : Fin 32).val) ∧
      (∀ b ∈ indexFields (.equal 0 31 1), b.toNat ≠ (1 : Fin 32).val) ∧
      nextSee (regPc 31) (exec (.add 0 31 31) (full 2 0 31 31)) = some (-5, 2147483648) ∧
      nextSee flagPc (exec (.equal 0 31 1) (full 8 0 31 1)) = some (false, 2147483648) := by decide

theorem witness_DiagnosticsAreWriteOnly :
    nextSee State.diag (step (full 1 31 0 7)) = some [.load 1, .load 7] ∧
      nextSee State.diag (exec .halt (full 0 0 0 0)) = some [.load 1, .halt 2147483644] ∧
      nextSee State.diag (exec (.load 32 7) (full 1 32 0 7)) = some [.load 1] := by decide

theorem witness_FirstBadIndexFaults :
    firstBadIndex (.add 31 32 40) = some 32 ∧ firstBadIndex (.load 32 0) = some 32 ∧
      firstBadIndex (.lessOrEqual 255 40 0) = some 255 ∧ firstBadIndex (.jumpIfEqual 255) = some 255 := by decide

/-- One byte short, and just long enough: at PROG_MAX and in a short buffer. -/
theorem witness_FetchOverrunExactlyWhenCutShort :
    (full 5 0 31 2).progLen ≤ Config.progMax ∧ (full 5 0 31 2).isFaulted = false ∧
      (full 5 0 31 2).progByte (full 5 0 31 2).pc.toNat = some 5 ∧
      (full 5 0 31 2).pc.toNat + (decodeOpcode 5).format.length ≤ (full 5 0 31 2).progLen ∧
      nextSee statusPc (step (full 5 0 31 2)) = some (.running, 2147483648) ∧
      (loaded [8, 0, 1]).progLen ≤ Config.progMax ∧ (loaded [8, 0, 1]).isFaulted = false ∧
      (loaded [8, 0, 1]).progByte (loaded [8, 0, 1]).pc.toNat = some 8 ∧
      (loaded [8, 0, 1]).progLen < (loaded [8, 0, 1]).pc.toNat + (decodeOpcode 8).format.length := by decide

theorem witness_FaultsArePrecise :
    (full 5 0 1 2).isFaulted = false ∧ step (full 5 0 1 2) = .next faultedState ∧ faultedState.isFaulted = true :=
  ⟨rfl, rfl, rfl⟩

theorem witness_FaultedIsLeftOnlyByReset :
    faultedState.isFaulted = true ∧ applyHostOp .step faultedState = .next faultedState ∧
      applyHostOp .reset faultedState = .next State.reset := ⟨rfl, rfl, rfl⟩

theorem witness_LoadProgramReplacesTheBuffer :
    (full 0 0 0 0).isFaulted = false ∧ ([] : List Byte).length ≤ Config.progMax ∧
      (List.replicate Config.progMax (7 : Byte)).length ≤ Config.progMax ∧
      Config.progMax < (List.replicate (Config.progMax + 1) (7 : Byte)).length := by
  refine ⟨rfl, Nat.zero_le _, ?_, ?_⟩ <;> rw [List.length_replicate]
  exact Nat.lt_succ_self _

theorem witness_PokeWritesWhatItNames :
    (full 0 0 0 0).isFaulted = false ∧ (31 : Fin 32) ≠ 0 := by decide

theorem witness_CanonicalMemoryIsUnique :
    Memory.wf [(0, 1), (2147483647, 255)] = true ∧
      Memory.wf (Memory.write [(0, 1), (2147483647, 255)] 5 0) = true ∧
      ∀ k, Memory.read [(0, 1), (2147483647, 255)] k =
        Memory.read (Memory.write [(0, 1), (2147483647, 255)] 5 0) k := by
  refine ⟨by decide, by decide, fun k => ?_⟩
  have : Memory.write [(0, 1), (2147483647, 255)] 5 0 = [(0, 1), (2147483647, 255)] := by decide
  rw [this]

/-- The three ends: exhaustion, Halt after an illegal byte, a fault. -/
theorem witness_RunEndsInOneOfThreeWays :
    run 1 State.reset = .ended (State.reset.setStatus .halted) ∧
      run 2 (loaded [200, 0]) =
        .ended { loaded [200, 0] with pc := 2, status := .halted, diag := [.illegalOpcode 0 200, .halt 1] } ∧
      run 1 (full 5 0 1 2) = .ended faultedState := ⟨rfl, rfl, rfl⟩

theorem witness_OperandFreeProgramsRunSafely :
    (loaded [15, 255, 0]).isFaulted = false ∧
      (∀ k b, (loaded [15, 255, 0]).progByte k = some b → b = 0 ∨ 15 ≤ b.toNat) ∧
      run 3 (loaded [15, 255, 0]) =
        .ended { loaded [15, 255, 0] with
          pc := 3, status := .halted, diag := [.illegalOpcode 0 15, .illegalOpcode 1 255, .halt 2] } := by
  refine ⟨rfl, fun k b h => ?_, rfl⟩
  match k, h with
  | 0, h => cases h; decide
  | 1, h => cases h; decide
  | 2, h => cases h; decide
  | k + 3, h => rw [State.progByte_of_ge (show 3 ≤ k + 3 by omega)] at h; cases h

theorem witness_FaultComesAgain :
    (full 5 0 1 2).isFaulted = false ∧ step (full 5 0 1 2) = .next faultedState ∧ faultedState.isFaulted = true :=
  ⟨rfl, rfl, rfl⟩

/-- The invariant holds of the running state with a full buffer, of the state its Div by zero faults in, and of a state
that takes an ordinary step. -/
theorem witness_EveryStepKeepsTheInvariant :
    (full 5 0 1 2).Inv ∧ step (full 5 0 1 2) = .next faultedState ∧ faultedState.Inv ∧
      (loaded [1, 40, 0]).Inv ∧
      step (loaded [1, 40, 0]) = .next (raise (.fetchOverrun 3) (loaded [1, 40, 0])) := by
  refine ⟨⟨by decide, by decide, by decide, fun _ _ h => by cases h⟩, rfl,
    ⟨by decide, by decide, by decide, fun c p h => ?_⟩,
    ⟨by decide, by decide, by decide, fun _ _ h => by cases h⟩, rfl⟩
  cases h
  exact ⟨rfl, by decide, 1, rfl, rfl⟩

/-- Reset, LoadProgram, Poke and a Step that faults. -/
theorem witness_ReachableStatesHaveTheInvariant :
    ∃ s, Reachable s ∧ s.status = .faulted (.registerIndexOutOfRange 40) 1 ∧ s.readReg 31 = 9 :=
  ⟨raise (.registerIndexOutOfRange 40) (((loaded [0, 6, 40]).writeReg 31 9).setPc 1),
    .act .step (.act (.poke .pc 1) (.act (.poke (.reg 31) 9)
      (.act (.loadProgram [0, 6, 40]) .reset rfl) rfl) rfl) rfl, rfl, by decide⟩

end Sys2Proof.Tests
end

/-! ## The reset state and the flag

How the flag travels through an instruction: which operations commute with `State.setFlag`, which overwrite it, and the
obligations on the reset state and the flag that follow. -/

namespace Sys2Proof.Machine

/-! ### The reset state -/

@[simp] theorem State.reset_readReg (r : Fin 32) : State.reset.readReg r = 0 := by
  simp [State.readReg, State.reset]

/-- The reset buffer is empty, so no offset has a byte. -/
@[simp] theorem State.reset_progByte (k : Nat) : State.reset.progByte k = none :=
  State.progByte_of_ge (Nat.zero_le k)

/-- Settles O1, field by field. -/
theorem resetLeavesTheStatedValues : Obligations.ResetLeavesTheStatedValues :=
  ⟨State.reset_readReg, rfl, rfl, rfl, rfl, rfl, State.reset_progByte, rfl⟩

/-! ### A change of the start state that a body passes on -/

/-- If a change `f` of the state commutes with taking a fault, and a body run on the changed state answers its old answer
changed, then the instruction's next state is the old one changed. -/
theorem finish_map {s t : State} {body body' : Except Cause State} (f : State → State)
    (hraise : ∀ c, raise c (f s) = f (raise c s)) (hbody : body' = body.map f) (h : finish s body = .next t) :
    finish (f s) body' = .next (f t) := by
  subst hbody
  rcases finish_next h with rfl | ⟨c, rfl, rfl⟩
  · rfl
  · exact congrArg Host.Outcome.next (hraise c)

/-! ### The flag through the shared operations -/

theorem raise_setFlag (c : Cause) (s : State) (f : Bool) : raise c (s.setFlag f) = (raise c s).setFlag f := rfl

theorem writeAlu_setFlag (s : State) (f : Bool) (d : Fin 32) (out : AluResult) :
    (s.setFlag f).writeAlu d out = (s.writeAlu d out).setFlag f := by
  obtain ⟨v, r⟩ := out
  cases r <;> rfl

/-- The arithmetic body neither reads nor writes the flag. -/
theorem arithBody_setFlag (op : Int → Int → Except Cause AluResult) (a b d : Byte) (s : State) (f : Bool) :
    arithBody op a b d (s.setFlag f) = (arithBody op a b d s).map (·.setFlag f) := by
  rcases regsABD_cases a b d with ⟨ra, rb, rd, ha, hb, hd, -⟩ | ⟨j, -, e⟩
  · simp only [arithBody_of_lt op ha hb hd, State.setFlag_readReg, State.setFlag_pc, writeAlu_setFlag]
    cases op (s32 (s.readReg ra)) (s32 (s.readReg rb)) <;> rfl
  · simp only [arithBody, e]
    rfl

/-- Load's body neither reads nor writes the flag. -/
theorem loadBody_setFlag (d : Byte) (imm : BitVec 16) (s : State) (f : Bool) :
    loadBody d imm (s.setFlag f) = (loadBody d imm s).map (·.setFlag f) := by
  rcases regIndex_cases d with ⟨rd, hd, -⟩ | ⟨-, e⟩
  · simp only [loadBody_of_lt hd]
    rfl
  · simp only [loadBody, e]
    rfl

/-- A jump whose target does not depend on the flag passes the flag on. -/
theorem jumpBody_setFlag (target : Word → Word) (r : Byte) (s : State) (f : Bool) :
    ((readOperandR r (s.setFlag f)).map fun v => (s.setFlag f).continueAt (target v)) =
      ((readOperandR r s).map fun v => s.continueAt (target v)).map (·.setFlag f) := by
  rcases regIndex_cases r with ⟨q, hq, -⟩ | ⟨-, e⟩
  · simp only [readOperandR_of_lt hq]
    rfl
  · simp only [readOperandR, e]
    rfl

/-! ### The comparisons -/

/-- The instructions of format ABX are the comparisons: each runs the common body with a relation of its own on the two
registers its index fields name. -/
theorem exec_of_abx {i : Instr} (h : i.opcode.format = .abx) :
    ∃ rel a b, indexFields i = [a, b] ∧ ∀ s, exec i s = finish s (compareBody rel a b s) := by
  cases i with
  | equal a b pad => exact ⟨relEqual, a, b, rfl, fun _ => rfl⟩
  | notEqual a b pad => exact ⟨relNotEqual, a, b, rfl, fun _ => rfl⟩
  | greaterThan a b pad => exact ⟨relGreaterThan, a, b, rfl, fun _ => rfl⟩
  | lessThan a b pad => exact ⟨relLessThan, a, b, rfl, fun _ => rfl⟩
  | greaterOrEqual a b pad => exact ⟨relGreaterOrEqual, a, b, rfl, fun _ => rfl⟩
  | lessOrEqual a b pad => exact ⟨relLessOrEqual, a, b, rfl, fun _ => rfl⟩
  | halt | load | add | sub | mul | div | jump | jumpForward | jumpIfEqual | illegalOpcode => cases h

/-- A comparison with legal indices overwrites the flag whatever it held. -/
theorem exec_setFlag_of_abx {i : Instr} (hfmt : i.opcode.format = .abx) (hidx : firstBadIndex i = none) (s : State)
    (f : Bool) : exec i (s.setFlag f) = exec i s := by
  obtain ⟨rel, a, b, hfields, hexec⟩ := exec_of_abx hfmt
  rw [firstBadIndex, hfields] at hidx
  rcases regsABX_cases a b with ⟨ra, rb, ha, hb, -⟩ | ⟨j, hj, -⟩
  · rw [hexec, hexec, compareBody_of_lt rel ha hb, compareBody_of_lt rel ha hb]
    rfl
  · rw [hidx] at hj
    cases hj

/-! ### The other instructions -/

/-- An instruction other than the comparisons and JumpIfEqual does the same whatever the flag is, and passes it on. -/
theorem exec_setFlag_of_not_abx {i : Instr} {s t : State} (f : Bool) (hfmt : i.opcode.format ≠ .abx)
    (hjie : i.opcode ≠ .jumpIfEqual) (h : exec i s = .next t) : exec i (s.setFlag f) = .next (t.setFlag f) := by
  have pass {body body' : Except Cause State} (hbody : body' = body.map (·.setFlag f))
      (hfin : finish s body = .next t) : finish (s.setFlag f) body' = .next (t.setFlag f) :=
    finish_map (·.setFlag f) (fun c => raise_setFlag c s f) hbody hfin
  cases i with
  | halt | illegalOpcode => cases h; rfl
  | load d imm => exact pass (loadBody_setFlag d imm s f) h
  | add a b d | sub a b d | mul a b d | div a b d => exact pass (arithBody_setFlag _ a b d s f) h
  | jump r => exact pass (jumpBody_setFlag id r s f) h
  | jumpForward r => exact pass (jumpBody_setFlag (fun v => pcPlus (s.pc + 2) (s32 v)) r s f) h
  | equal | notEqual | greaterThan | lessThan | greaterOrEqual | lessOrEqual => exact absurd rfl hfmt
  | jumpIfEqual => exact absurd rfl hjie

/-- JumpIfEqual with a legal index goes where the flag says and leaves the flag. -/
theorem execJumpIfEqual_of_lt {r : Byte} {q : Fin 32} (hr : r.toNat = q.val) (s : State) :
    execJumpIfEqual r s = .next (s.continueAt (if s.flag then s.readReg q else s.pc + 2)) := by
  rw [execJumpIfEqual, readOperandR_of_lt hr]
  rfl

theorem execJumpIfEqual_flag {r : Byte} {s t : State} (h : execJumpIfEqual r s = .next t) : t.flag = s.flag := by
  rcases regIndex_cases r with ⟨q, hq, -⟩ | ⟨-, e⟩
  · rw [execJumpIfEqual_of_lt hq] at h
    cases h
    rfl
  · rw [execJumpIfEqual, readOperandR, e] at h
    cases h
    rfl

/-- Only a comparison changes the flag. An instruction that passes on every flag passes on the one it was given. -/
theorem exec_flag_of_not_abx {i : Instr} {s t : State} (hfmt : i.opcode.format ≠ .abx) (h : exec i s = .next t) :
    t.flag = s.flag := by
  by_cases hjie : i.opcode = .jumpIfEqual
  · cases i with
    | jumpIfEqual r => exact execJumpIfEqual_flag h
    | _ => cases hjie
  · have hpass : exec i s = .next (t.setFlag s.flag) := exec_setFlag_of_not_abx s.flag hfmt hjie h
    have ht : t = t.setFlag s.flag := Host.Outcome.next.inj (h.symm.trans hpass)
    rw [ht, State.setFlag_flag]

/-- Settles O37: the comparisons overwrite the flag, every other instruction passes it on, and JumpIfEqual follows it. -/
theorem flagIsWrittenByComparisonsAndReadByJumpIfEqual : Obligations.FlagIsWrittenByComparisonsAndReadByJumpIfEqual :=
  ⟨rfl,
    fun _ _ _ hfmt h => exec_flag_of_not_abx hfmt h,
    fun _ s f hfmt hidx => exec_setFlag_of_abx hfmt hidx s f,
    fun _ _ _ f hfmt hjie h => exec_setFlag_of_not_abx f hfmt hjie h,
    fun s _ _ hr => ⟨execJumpIfEqual_of_lt hr (s.setFlag true), execJumpIfEqual_of_lt hr (s.setFlag false)⟩⟩

end Sys2Proof.Machine

/-! ## The encoding, from the bytes of the buffer to the instruction

The opcode byte table; what a step does when the buffer holds, from `pc` on, bytes that decode to an instruction; and the
operand bytes of an encoding. -/

namespace Sys2Proof.Machine

/-! ### The opcode byte -/

/-- The bytes consumed, read off the opcode byte (30_encoding.md R61). -/
theorem decodeOpcode_length (b : Byte) :
    (decodeOpcode b).format.length =
      if b = 0 ∨ 15 ≤ b.toNat then 1 else if b = 6 ∨ b = 7 ∨ b = 14 then 2 else 4 := by
  revert b; decide

/-- Settles O4, row by row; the bytes of 15 or more are no row and decode to IllegalOpcode. -/
theorem opcodeByteTable : Obligations.OpcodeByteTable :=
  ⟨rfl, fun _ h => decodeOpcode_of_ge h, rfl, decodeOpcode_length⟩

/-! ### The operand bytes -/

/-- Outside format DI the bytes after the opcode byte are register indices, and in format ABX one byte more. -/
theorem encode_tail (i : Instr) (h : i.opcode ≠ .load) :
    (encode i).tail = indexFields i ∨ (i.opcode.format = .abx ∧ ∃ pad, (encode i).tail = indexFields i ++ [pad]) := by
  cases i with
  | load => exact absurd rfl h
  | equal a b pad | notEqual a b pad | greaterThan a b pad | lessThan a b pad | greaterOrEqual a b pad
  | lessOrEqual a b pad => exact .inr ⟨rfl, pad, rfl⟩
  | halt | add | sub | mul | div | jump | jumpForward | jumpIfEqual | illegalOpcode => exact .inl rfl

/-! ### The fetch window over known bytes -/

/-- An offset that has a byte lies below N. -/
theorem State.lt_of_progByte {s : State} {k : Nat} {b : Byte} (h : s.progByte k = some b) : k < s.progLen := by
  by_contra hk
  rw [State.progByte_of_ge (Nat.le_of_not_lt hk)] at h
  cases h

/-- With N at most PROG_MAX the counter does not wrap on a byte of the buffer (decisions D2, D3). -/
theorem pc_succ_toNat {s : State} {pc : Word} {b : Byte} (hN : s.progLen ≤ Config.progMax)
    (h : s.progByte pc.toNat = some b) : (pc + 1).toNat = pc.toNat + 1 := by
  have hlt : pc.toNat < s.progLen := State.lt_of_progByte h
  have hmax : Config.progMax = 2147483648 := rfl
  exact BitVec.toNat_add_of_lt (show pc.toNat + 1 < 2 ^ 32 by omega)

/-- A window over bytes the buffer holds begins with them. -/
theorem fetchWindow_of_bytes {s : State} (hN : s.progLen ≤ Config.progMax) (bytes : List Byte) (n : Nat) (pc : Word)
    (h : ∀ (k : Nat) (hk : k < bytes.length), s.progByte (pc.toNat + k) = some bytes[k]) :
    ∃ rest, fetchWindow (bytes.length + n) s pc = bytes ++ rest := by
  induction bytes generalizing pc with
  | nil => exact ⟨_, rfl⟩
  | cons b bytes ih =>
    have hb : s.progByte pc.toNat = some b := h 0 (Nat.succ_pos _)
    have htail (k : Nat) (hk : k < bytes.length) : s.progByte ((pc + 1).toNat + k) = some bytes[k] := by
      rw [pc_succ_toNat hN hb, Nat.add_assoc, Nat.add_comm 1 k]
      exact h (k + 1) (Nat.succ_lt_succ hk)
    obtain ⟨rest, hrest⟩ := ih (pc + 1) htail
    exact ⟨rest, by rw [List.length_cons, Nat.add_right_comm, fetchWindow_of_some hb, hrest, List.cons_append]⟩

theorem fetchInstr_of_decode {s : State} {i : Instr} (h : decode (fetchWindow maxInstrLength s s.pc) = .ok i) :
    fetchInstr s = .ok i := by
  rw [fetchInstr, h]

/-- A step at bytes that decode to `i`, whatever bytes follow them, runs `i`. -/
theorem step_of_bytes {s : State} {i : Instr} {bytes : List Byte} (hN : s.progLen ≤ Config.progMax)
    (hf : s.isFaulted = false) (hpos : 0 < bytes.length) (hlen : bytes.length ≤ maxInstrLength)
    (hbytes : ∀ (k : Nat) (hk : k < bytes.length), s.progByte (s.pc.toNat + k) = some bytes[k])
    (hdec : ∀ rest, decode (bytes ++ rest) = .ok i) : step s = exec i s := by
  obtain ⟨rest, hwin⟩ := fetchWindow_of_bytes hN bytes (maxInstrLength - bytes.length) s.pc hbytes
  rw [Nat.add_sub_cancel' hlen] at hwin
  refine step_of_fetched hf (State.lt_of_progByte (hbytes 0 hpos)) (fetchInstr_of_decode ?_)
  rw [hwin, hdec]

/-! ### The immediate of Load -/

/-- A zero-extended immediate reads as the unsigned number its two bytes write, high byte first. -/
theorem s32_zext16_bigEndian16 (hi lo : Byte) : s32 (zext16 (bigEndian16 hi lo)) = hi.toNat * 256 + lo.toNat := by
  have himm : (zext16 (bigEndian16 hi lo)).toNat = hi.toNat * 256 + lo.toNat := by
    rw [zext16, BitVec.toNat_setWidth_of_le (by decide), bigEndian16_toNat]
  have hhi : hi.toNat < 2 ^ 8 := hi.isLt
  have hlo : lo.toNat < 2 ^ 8 := lo.isLt
  rw [s32, BitVec.toInt_eq_toNat_of_lt (by omega), himm]
  rfl

/-- A step at the four bytes of a Load runs it, with the last two as the big-endian immediate. -/
theorem step_of_load_bytes {s : State} {d hi lo : Byte} (hN : s.progLen ≤ Config.progMax) (hf : s.isFaulted = false)
    (h0 : s.progByte s.pc.toNat = some 1) (h1 : s.progByte (s.pc.toNat + 1) = some d)
    (h2 : s.progByte (s.pc.toNat + 2) = some hi) (h3 : s.progByte (s.pc.toNat + 3) = some lo) :
    step s = execLoad d (bigEndian16 hi lo) s := by
  have hbytes : ∀ (k : Nat) (hk : k < [1, d, hi, lo].length), s.progByte (s.pc.toNat + k) = some [1, d, hi, lo][k]
    | 0, _ => h0
    | 1, _ => h1
    | 2, _ => h2
    | 3, _ => h3
  refine step_of_bytes hN hf ?_ ?_ hbytes fun _ => rfl
  · exact Nat.succ_pos 3
  · exact Nat.le_refl 4

/-- Settles O18: the step is Load's with the big-endian immediate, and `encode_tail` speaks of the other encodings. -/
theorem loadedImmediateIsBigEndianAndUnsigned : Obligations.LoadedImmediateIsBigEndianAndUnsigned := by
  refine ⟨fun s d hi lo rd hN hf h0 h1 h2 h3 hd => ?_, encode_tail⟩
  refine ⟨((s.writeReg rd (zext16 (bigEndian16 hi lo))).emit (.load (bigEndian16 hi lo))).continueAt (s.pc + 4), ?_, ?_,
    rfl⟩
  · rw [step_of_load_bytes hN hf h0 h1 h2 h3, execLoad, loadBody_of_lt hd, finish_ok]
  · rw [State.continueAt_readReg, State.emit_readReg, State.writeReg_readReg_same, s32_zext16_bigEndian16]

end Sys2Proof.Machine

/-! ## The step and the program buffer

No body writes the program buffer or N, so no instruction and no step does (40_step_and_dispatch.md R100). -/

namespace Sys2Proof.Machine

/-- `t` holds the program `s` holds: the same buffer and the same N. -/
def SameProgram (s t : State) : Prop := t.prog = s.prog ∧ t.progLen = s.progLen

/-- A read sees nothing but the buffer and N. -/
theorem SameProgram.progByte_eq {s t : State} (h : SameProgram s t) (k : Nat) : t.progByte k = s.progByte k := by
  obtain ⟨hprog, hlen⟩ := h
  rw [State.progByte, State.progByte, hprog, hlen]

/-- A state that holds the program of `s` differs from `s` in its other fields alone. -/
theorem SameProgram.eq_with {s t : State} (h : SameProgram s t) :
    t = { s with regs := t.regs, pc := t.pc, rem := t.rem, flag := t.flag, diag := t.diag, status := t.status } := by
  obtain ⟨hprog, hlen⟩ := h
  exact State.eq_of_fields rfl rfl rfl rfl rfl hprog hlen rfl

/-! ### The bodies -/

/-- Taking a fault keeps the program, so an instruction keeps it if its body does. -/
theorem finish_sameProgram {s t : State} {body : Except Cause State} (hbody : ∀ u, body = .ok u → SameProgram s u)
    (h : finish s body = .next t) : SameProgram s t := by
  rcases finish_next h with hok | ⟨c, -, rfl⟩
  · exact hbody t hok
  · exact ⟨raise_prog s c, raise_progLen s c⟩

theorem writeAlu_sameProgram (s : State) (d : Fin 32) (out : AluResult) : SameProgram s (s.writeAlu d out) := by
  obtain ⟨v, _ | r⟩ := out
  · exact ⟨rfl, rfl⟩
  · exact ⟨rfl, rfl⟩

theorem arithBody_sameProgram {op : Int → Int → Except Cause AluResult} {a b d : Byte} {s : State} (u : State)
    (h : arithBody op a b d s = .ok u) : SameProgram s u := by
  rcases arithBody_cases op a b d s with ⟨j, -, e⟩ | ⟨_, _, rd, -, -, -, ⟨c, -, e⟩ | ⟨out, -, e⟩⟩
  · cases e.symm.trans h
  · cases e.symm.trans h
  · cases e.symm.trans h
    exact writeAlu_sameProgram s rd out

theorem compareBody_sameProgram {rel : Int → Int → Bool} {a b : Byte} {s : State} (u : State)
    (h : compareBody rel a b s = .ok u) : SameProgram s u := by
  rcases compareBody_cases rel a b s with ⟨j, -, e⟩ | ⟨_, _, -, -, e⟩
  · cases e.symm.trans h
  · cases e.symm.trans h
    exact ⟨rfl, rfl⟩

theorem loadBody_sameProgram {d : Byte} {imm : BitVec 16} {s : State} (u : State)
    (h : loadBody d imm s = .ok u) : SameProgram s u := by
  rcases loadBody_cases d imm s with ⟨-, e⟩ | ⟨_, -, e⟩
  · cases e.symm.trans h
  · cases e.symm.trans h
    exact ⟨rfl, rfl⟩

/-- A jump writes the counter and the status, whatever its target. -/
theorem jumpBody_sameProgram {target : Word → Word} {r : Byte} {s : State} (u : State)
    (h : ((readOperandR r s).map fun v => s.continueAt (target v)) = .ok u) : SameProgram s u := by
  rcases readOperandR_cases r s with ⟨-, e⟩ | ⟨_, -, e⟩
  · rw [e] at h
    cases h
  · rw [e] at h
    cases h
    exact ⟨rfl, rfl⟩

/-! ### The instructions and the step -/

theorem exec_sameProgram {i : Instr} {s t : State} (h : exec i s = .next t) : SameProgram s t := by
  cases i with
  | halt | illegalOpcode => cases h; exact ⟨rfl, rfl⟩
  | load => exact finish_sameProgram loadBody_sameProgram h
  | add | sub | mul | div => exact finish_sameProgram arithBody_sameProgram h
  | jump => exact finish_sameProgram (jumpBody_sameProgram (target := id)) h
  | jumpForward => exact finish_sameProgram (jumpBody_sameProgram (target := fun v => pcPlus (s.pc + 2) (s32 v))) h
  | jumpIfEqual =>
    exact finish_sameProgram (jumpBody_sameProgram (target := fun v => if s.flag then v else s.pc + 2)) h
  | equal | notEqual | greaterThan | lessThan | greaterOrEqual | lessOrEqual =>
    exact finish_sameProgram compareBody_sameProgram h

theorem step_sameProgram {s t : State} (h : step s = .next t) : SameProgram s t := by
  rcases step_cases h with ⟨-, rfl⟩ | ⟨-, -, rfl⟩ | ⟨-, -, ⟨c, -, rfl⟩ | ⟨i, -, hexec⟩⟩
  · exact ⟨rfl, rfl⟩
  · exact ⟨stopExhausted_prog s, stopExhausted_progLen s⟩
  · exact ⟨raise_prog s c, raise_progLen s c⟩
  · exact exec_sameProgram hexec

/-- Settles O11: every step keeps the program, and with it every byte read and all but the fields R100 lists. -/
theorem stepNeverChangesTheProgram : Obligations.StepNeverChangesTheProgram := fun _ _ h =>
  have hsame := step_sameProgram h
  ⟨hsame.1, hsame.2, hsame.progByte_eq, hsame.eq_with⟩

end Sys2Proof.Machine

/-! ## Halt

A byte that is a whole instruction fills the fetch window's first place, so a step at it needs no bound on N; Halt is such
an instruction (41_halt.md R105). -/

namespace Sys2Proof.Machine

/-- A step at a byte that decodes to `i` by itself, whatever follows it, runs `i`. -/
theorem step_of_single_byte {s : State} {i : Instr} {b : Byte} (hf : s.isFaulted = false)
    (hb : s.progByte s.pc.toNat = some b) (hdec : ∀ rest, decode (b :: rest) = .ok i) : step s = exec i s := by
  have hwin : fetchWindow maxInstrLength s s.pc = b :: fetchWindow 3 s (s.pc + 1) := fetchWindow_of_some hb 3
  refine step_of_fetched hf (State.lt_of_progByte hb) (fetchInstr_of_decode ?_)
  rw [hwin, hdec]

/-- The byte 0 is the whole encoding of Halt. -/
theorem decode_zero_cons (rest : List Byte) : decode (0 :: rest) = .ok .halt := rfl

/-- Halt moves the counter, the status and the diagnostics, and no other field. -/
theorem exec_halt (s : State) :
    exec .halt s = .next { s with pc := s.pc + 1, status := .halted, diag := s.diag ++ [.halt s.pc] } := rfl

/-- Settles O15: the step at a byte 0 is Halt's. -/
theorem haltStopsAfterItsByte : Obligations.HaltStopsAfterItsByte := fun s =>
  ⟨exec_halt s, fun hf hb => (step_of_single_byte hf hb decode_zero_cons).trans (exec_halt s)⟩

end Sys2Proof.Machine

/-! ## The frame of the arithmetic instructions

What Add, Sub, Mul and Div write is what `State.writeAlu` writes: the destination register and, where the ALU gives a
remainder, `rem` (43_arithmetic.md R126). -/

namespace Sys2Proof.Machine

/-! ### The writes of the ALU's result -/

@[simp] theorem writeAlu_diag (s : State) (d : Fin 32) (out : AluResult) : (s.writeAlu d out).diag = s.diag := by
  obtain ⟨v, _ | r⟩ := out <;> rfl

theorem writeAlu_rem (s : State) (d : Fin 32) (out : AluResult) :
    (s.writeAlu d out).rem = out.rem.getD s.rem := by
  obtain ⟨v, _ | r⟩ := out <;> rfl

theorem writeAlu_readReg_other (s : State) {d q : Fin 32} (out : AluResult) (h : d ≠ q) :
    (s.writeAlu d out).readReg q = s.readReg q := by
  obtain ⟨v, _ | r⟩ := out
  · exact State.writeReg_readReg_other s v h
  · rw [writeAlu_some, State.setRem_readReg, State.writeReg_readReg_other s v h]

/-- The ALU of Add, Sub and Mul gives no remainder, whichever the overflow mode. -/
theorem narrow_rem {mode : OverflowMode} {opcodeByte : Byte} {v : Int} {out : AluResult}
    (h : narrow mode opcodeByte v = .ok out) : out.rem = none := by
  cases mode with
  | wrap => cases h; rfl
  | fault =>
    rw [narrow] at h
    split at h
    · cases h; rfl
    · cases h

/-! ### The four instructions -/

/-- The instructions of format ABD are the arithmetic ones: each runs the common body with an ALU operation of its own,
and only that of Div gives a remainder. -/
theorem exec_of_abd {i : Instr} (h : i.opcode.format = .abd) :
    ∃ op a b d, destReg i = (regIndex d).toOption ∧
      (i.opcode ≠ .div → ∀ va vb out, op va vb = .ok out → out.rem = none) ∧
      ∀ s, exec i s = finish s (arithBody op a b d s) := by
  cases i with
  | add a b d => exact ⟨aluAdd Config.overflowMode, a, b, d, rfl, fun _ _ _ _ => narrow_rem, fun _ => rfl⟩
  | sub a b d => exact ⟨aluSub Config.overflowMode, a, b, d, rfl, fun _ _ _ _ => narrow_rem, fun _ => rfl⟩
  | mul a b d => exact ⟨aluMul Config.overflowMode, a, b, d, rfl, fun _ _ _ _ => narrow_rem, fun _ => rfl⟩
  | div a b d => exact ⟨aluDiv Config.divOverflowMode b, a, b, d, rfl, fun hdiv => absurd rfl hdiv, fun _ => rfl⟩
  | halt | load | jump | jumpForward | equal | notEqual | greaterThan | lessThan | greaterOrEqual | lessOrEqual
  | jumpIfEqual | illegalOpcode => cases h

/-- An arithmetic instruction takes a fault, or writes what its ALU gave to its destination and moves the counter. -/
theorem exec_abd_cases {i : Instr} {s t : State} (hfmt : i.opcode.format = .abd) (h : exec i s = .next t) :
    (∃ c, t = raise c s) ∨
      ∃ rd out, destReg i = some rd ∧ (i.opcode ≠ .div → out.rem = none) ∧
        t = (s.writeAlu rd out).continueAt (s.pc + 4) := by
  obtain ⟨op, a, b, d, hdest, hrem, hexec⟩ := exec_of_abd hfmt
  rw [hexec] at h
  rcases arithBody_cases op a b d s with ⟨j, -, e⟩ | ⟨_, _, rd, -, -, hd, ⟨c, -, e⟩ | ⟨out, hout, e⟩⟩
  · rw [e] at h
    cases h
    exact .inl ⟨_, rfl⟩
  · rw [e] at h
    cases h
    exact .inl ⟨c, rfl⟩
  · rw [e] at h
    cases h
    refine .inr ⟨rd, out, ?_, fun hdiv => hrem hdiv _ _ _ hout, rfl⟩
    rw [hdest, regIndex_of_lt hd]
    rfl

theorem exec_abd_rem {i : Instr} {s t : State} (hfmt : i.opcode.format = .abd) (hdiv : i.opcode ≠ .div)
    (h : exec i s = .next t) : t.rem = s.rem := by
  rcases exec_abd_cases hfmt h with ⟨c, rfl⟩ | ⟨rd, out, -, hrem, rfl⟩
  · rfl
  · rw [State.continueAt_rem, writeAlu_rem, hrem hdiv, Option.getD_none]

theorem exec_abd_readReg {i : Instr} {s t : State} {q : Fin 32} (hfmt : i.opcode.format = .abd)
    (hq : destReg i ≠ some q) (h : exec i s = .next t) : t.readReg q = s.readReg q := by
  rcases exec_abd_cases hfmt h with ⟨c, rfl⟩ | ⟨rd, out, hdest, -, rfl⟩
  · rfl
  · have hne : rd ≠ q := fun e => hq (hdest.trans (congrArg some e))
    rw [State.continueAt_readReg, writeAlu_readReg_other s out hne]

theorem exec_abd_diag {i : Instr} {s t : State} (hfmt : i.opcode.format = .abd) (h : exec i s = .next t) :
    t.diag = s.diag := by
  rcases exec_abd_cases hfmt h with ⟨c, rfl⟩ | ⟨rd, out, -, -, rfl⟩
  · rfl
  · rw [State.continueAt_diag, writeAlu_diag]

/-- Settles O33, field by field: only the destination and Div's remainder are written, and no instruction writes the
program. -/
theorem arithmeticFrame : Obligations.ArithmeticFrame := by
  intro i s t hfmt h
  have hflag : t.flag = s.flag := exec_flag_of_not_abx (by rw [hfmt]; decide) h
  have hsame : SameProgram s t := exec_sameProgram h
  exact ⟨hflag, fun hdiv => exec_abd_rem hfmt hdiv h, fun _ hq => exec_abd_readReg hfmt hq h, exec_abd_diag hfmt h,
    hsame.2, hsame.progByte_eq⟩

end Sys2Proof.Machine

/-! ## The jumps

Where a jump with a legal index goes is a function of the register it names, and every counter is a value of that function
(44_jump.md R132). -/

namespace Sys2Proof.Machine

/-- The signed sum modulo `2^32` is the sum of the patterns (44_jump.md R134). -/
theorem pcPlus_s32 (pc v : Word) : pcPlus pc (s32 v) = pc + v := by
  simp [pcPlus, u32, s32, BitVec.ofInt_add]

theorem execJump_of_lt {r : Byte} {q : Fin 32} (hr : r.toNat = q.val) (s : State) :
    execJump r s = .next (s.continueAt (s.readReg q)) := by
  rw [execJump, readOperandR_of_lt hr]
  rfl

theorem execJumpForward_of_lt {r : Byte} {q : Fin 32} (hr : r.toNat = q.val) (s : State) :
    execJumpForward r s = .next (s.continueAt (s.pc + 2 + s.readReg q)) := by
  rw [execJumpForward, readOperandR_of_lt hr, ← pcPlus_s32 (s.pc + 2)]
  rfl

/-- A jump that is taken completes in every state with the counter and the flag of `s`, at a target that its register
alone decides, and some value of the register gives any target. -/
theorem exec_of_taken_jump {s : State} {r : Byte} {q : Fin 32} {i : Instr} (hr : r.toNat = q.val)
    (hi : i = .jump r ∨ i = .jumpForward r ∨ (i = .jumpIfEqual r ∧ s.flag = true)) :
    ∃ target : Word → Word, Function.Surjective target ∧
      ∀ u : State, u.pc = s.pc → u.flag = s.flag → exec i u = .next (u.continueAt (target (u.readReg q))) := by
  rcases hi with rfl | rfl | ⟨rfl, hflag⟩
  · exact ⟨id, Function.surjective_id, fun u _ _ => execJump_of_lt hr u⟩
  · refine ⟨(s.pc + 2 + ·), add_left_surjective (s.pc + 2), fun u hpc _ => ?_⟩
    rw [← hpc]
    exact execJumpForward_of_lt hr u
  · refine ⟨id, Function.surjective_id, fun u _ hu => (execJumpIfEqual_of_lt hr u).trans ?_⟩
    rw [hu, if_pos hflag, id]

/-- Settles O31: a taken jump ends Running at the value of a surjective function of its register, and the step after it
tests the counter before it fetches. -/
theorem jumpTargetsAreNotChecked : Obligations.JumpTargetsAreNotChecked := by
  intro s r q i hr hi
  obtain ⟨target, hsurj, hexec⟩ := exec_of_taken_jump hr hi
  refine ⟨⟨_, hexec s rfl rfl, rfl, step_of_exhausted rfl⟩, fun dest => ?_⟩
  obtain ⟨v, hv⟩ := hsurj dest
  refine ⟨v, _, hexec (s.writeReg q v) rfl rfl, ?_, rfl⟩
  rw [State.continueAt_pc, State.writeReg_readReg_same, hv]

end Sys2Proof.Machine

/-! ## IllegalOpcode

Like Halt, a byte of 15 or more is a whole instruction, so a step at it needs no bound on N (47_illegal.md R160). -/

namespace Sys2Proof.Machine

/-- A byte of 15 or more is the whole encoding of IllegalOpcode; no operand byte is consumed. -/
theorem decode_cons_of_ge {op : Byte} (h : 15 ≤ op.toNat) (rest : List Byte) :
    decode (op :: rest) = .ok (.illegalOpcode op) := by
  rw [decode, decodeOpcode_of_ge h]

/-- IllegalOpcode moves the counter, the status and the diagnostics, and no other field. -/
theorem exec_illegalOpcode (op : Byte) (s : State) :
    exec (.illegalOpcode op) s =
      .next { s with pc := s.pc + 1, status := .running, diag := s.diag ++ [.illegalOpcode s.pc op] } := rfl

/-- Settles O16: the step at a byte of 15 or more is IllegalOpcode's. -/
theorem illegalOpcodeSkipsOneByte : Obligations.IllegalOpcodeSkipsOneByte := fun s op hop =>
  ⟨exec_illegalOpcode op s, fun hf hb =>
    (step_of_single_byte hf hb (decode_cons_of_ge hop)).trans (exec_illegalOpcode op s)⟩

end Sys2Proof.Machine

/-! ## The decoder and the encoder

Both directions of 30_encoding.md section 6, and what follows for a buffer that holds an encoding. -/

namespace Sys2Proof.Machine

/-- Settles O6, instruction by instruction: the fields come back as they stand, Load's immediate from its two halves,
and an opcode byte of 15 or more is its own field. -/
theorem decodeOfEncodeIsTheInstruction : Obligations.DecodeOfEncodeIsTheInstruction := by
  intro i rest hwf
  cases i with
  | load d imm =>
    show DecodeResult.ok (.load d (bigEndian16 (imm.extractLsb' 8 8) (imm.extractLsb' 0 8))) = .ok (.load d imm)
    rw [bigEndian16_extract]
  | illegalOpcode op => exact decode_cons_of_ge (of_decide_eq_true hwf) rest
  | halt | add | sub | mul | div | jump | jumpForward | equal | notEqual | greaterThan | lessThan | greaterOrEqual
  | lessOrEqual | jumpIfEqual => rfl

theorem encode_length (i : Instr) : (encode i).length = i.length := by
  cases i <;> rfl

/-- What the decoder answers with `i` begins with the encoding of `i`. -/
theorem decode_ok {bytes : List Byte} {i : Instr} (h : decode bytes = .ok i) :
    i.wellFormed = true ∧ ∃ rest, bytes = encode i ++ rest := by
  cases bytes with
  | nil => cases h
  | cons b operands =>
    rw [decode] at h
    cases hop : decodeOpcode b with
    | halt =>
      cases decodeOpcode_eq hop (by decide)
      cases h
      exact ⟨rfl, operands, rfl⟩
    | illegalOpcode =>
      rw [hop] at h
      cases h
      exact ⟨decide_eq_true (decodeOpcode_illegal hop), operands, rfl⟩
    | load =>
      cases decodeOpcode_eq hop (by decide)
      obtain ⟨d, hi, lo, rest, rfl, rfl⟩ := decodeDI_ok h
      refine ⟨rfl, rest, ?_⟩
      rw [encode, bigEndian16_high, bigEndian16_low]
      rfl
    | jump | jumpForward | jumpIfEqual =>
      cases decodeOpcode_eq hop (by decide)
      obtain ⟨r, rest, rfl, rfl⟩ := decodeR_ok h
      exact ⟨rfl, rest, rfl⟩
    | add | sub | mul | div | equal | notEqual | greaterThan | lessThan | greaterOrEqual | lessOrEqual =>
      cases decodeOpcode_eq hop (by decide)
      obtain ⟨x, y, z, rest, rfl, rfl⟩ := decodeThree_ok h
      exact ⟨rfl, rest, rfl⟩

/-- Settles O7: the bytes read are the encoding of the answer, which decodes to it whatever follows. -/
theorem encodeOfDecodeIsTheBytesRead : Obligations.EncodeOfDecodeIsTheBytesRead := by
  intro bytes i h
  obtain ⟨hwf, rest, rfl⟩ := decode_ok h
  have htake : (encode i ++ rest).take i.length = encode i := List.take_left' (encode_length i)
  refine ⟨hwf, ?_, htake.symm, fun rest' => ?_⟩
  · rw [List.length_append, encode_length]
    exact Nat.le_add_right _ _
  · rw [htake]
    exact decodeOfEncodeIsTheInstruction i rest' hwf

/-- Every format has an opcode byte, and none is longer than the fetch window. -/
theorem format_length_bounds (f : Format) : 0 < f.length ∧ f.length ≤ maxInstrLength := by
  cases f <;> decide

/-- Settles O8: the window at `pc` is what a step decodes. -/
theorem stepRunsTheDecodedInstruction : Obligations.StepRunsTheDecodedInstruction :=
  fun _ _ hf hpc hdec => step_of_fetched hf hpc (fetchInstr_of_decode hdec)

/-- Settles O9: the bytes of an encoding decode to the instruction whatever follows them in the window. -/
theorem encodedInstructionInTheBufferIsRun : Obligations.EncodedInstructionInTheBufferIsRun := by
  intro s i hN hf hwf hbytes
  obtain ⟨hpos, hmax⟩ : 0 < i.length ∧ i.length ≤ maxInstrLength := format_length_bounds i.opcode.format
  rw [← encode_length] at hpos hmax
  exact step_of_bytes hN hf hpos hmax hbytes fun rest => decodeOfEncodeIsTheInstruction i rest hwf

/-- Settles O5: the decoder evaluated on the six words. -/
theorem sampleWordsDecode : Obligations.SampleWordsDecode := ⟨rfl, rfl, rfl, rfl, rfl, rfl⟩

end Sys2Proof.Machine

/-! ## How an instruction ends

`Completes` and `Traps` say once what each instruction can do, and `exec_cases` that it can do nothing else; the
frames, the faults and the independence of an instruction from what it does not read are case splits over these two
relations. -/

namespace Sys2Proof.Machine

/-- What a completing instruction writes: always the counter and the status, and whichever else is given. -/
structure Writes where
  reg : Option (Fin 32 × Word) := none
  rem : Option Word := none
  flag : Option Bool := none
  pc : Word
  status : Status := .running
  event : Option DiagEvent := none

/-- The state with the writes made; the program buffer and N are never among them. -/
def Writes.apply (w : Writes) (s : State) : State where
  regs := match w.reg with
    | some (r, v) => s.regs.set r.val v r.isLt
    | none => s.regs
  pc := w.pc
  rem := w.rem.getD s.rem
  flag := w.flag.getD s.flag
  status := w.status
  prog := s.prog
  progLen := s.progLen
  diag := match w.event with
    | some e => s.diag ++ [e]
    | none => s.diag

@[simp] theorem Writes.apply_pc (w : Writes) (s : State) : (w.apply s).pc = w.pc := rfl
@[simp] theorem Writes.apply_rem (w : Writes) (s : State) : (w.apply s).rem = w.rem.getD s.rem := rfl
@[simp] theorem Writes.apply_flag (w : Writes) (s : State) : (w.apply s).flag = w.flag.getD s.flag := rfl
@[simp] theorem Writes.apply_status (w : Writes) (s : State) : (w.apply s).status = w.status := rfl

theorem Writes.apply_diag (w : Writes) (s : State) : (w.apply s).diag = s.diag ++ w.event.toList := by
  obtain ⟨_, _, _, _, _, _ | e⟩ := w
  · exact (List.append_nil _).symm
  · rfl

theorem Writes.apply_readReg_same {w : Writes} {r : Fin 32} {v : Word} (s : State) (h : w.reg = some (r, v)) :
    (w.apply s).readReg r = v := by
  obtain ⟨_, _, _, _, _, _⟩ := w
  cases h
  exact State.writeReg_readReg_same s r v

theorem Writes.apply_readReg_other {w : Writes} {q : Fin 32} (s : State) (h : w.reg.map Prod.fst ≠ some q) :
    (w.apply s).readReg q = s.readReg q := by
  obtain ⟨_ | ⟨r, v⟩, _, _, _, _, _⟩ := w
  · rfl
  · exact State.writeReg_readReg_other s v fun e => h (congrArg some e)

/-- `Completes s i w`: every index field of `i` selects a register, a divisor is legal, and `i`, begun in `s`, makes the
writes `w` (30_encoding.md R61; the bodies of 41_halt.md to 47_illegal.md). -/
inductive Completes (s : State) : Instr → Writes → Prop
  | halt : Completes s .halt { pc := s.pc + 1, status := .halted, event := some (.halt s.pc) }
  | load {d : Byte} {imm : BitVec 16} {rd : Fin 32} (hd : d.toNat = rd.val) :
      Completes s (.load d imm) { reg := some (rd, zext16 imm), pc := s.pc + 4, event := some (.load imm) }
  | add {a b d : Byte} {ra rb rd : Fin 32} (ha : a.toNat = ra.val) (hb : b.toNat = rb.val) (hd : d.toNat = rd.val) :
      Completes s (.add a b d) { reg := some (rd, u32 (s32 (s.readReg ra) + s32 (s.readReg rb))), pc := s.pc + 4 }
  | sub {a b d : Byte} {ra rb rd : Fin 32} (ha : a.toNat = ra.val) (hb : b.toNat = rb.val) (hd : d.toNat = rd.val) :
      Completes s (.sub a b d) { reg := some (rd, u32 (s32 (s.readReg ra) - s32 (s.readReg rb))), pc := s.pc + 4 }
  | mul {a b d : Byte} {ra rb rd : Fin 32} (ha : a.toNat = ra.val) (hb : b.toNat = rb.val) (hd : d.toNat = rd.val) :
      Completes s (.mul a b d) { reg := some (rd, u32 (s32 (s.readReg ra) * s32 (s.readReg rb))), pc := s.pc + 4 }
  | div {a b d : Byte} {ra rb rd : Fin 32} (ha : a.toNat = ra.val) (hb : b.toNat = rb.val) (hd : d.toNat = rd.val)
      (hzero : s32 (s.readReg rb) ≠ 0)
      (hover : ¬(s32 (s.readReg ra) = -2147483648 ∧ s32 (s.readReg rb) = -1)) :
      Completes s (.div a b d)
        { reg := some (rd, u32 (tdiv (s32 (s.readReg ra)) (s32 (s.readReg rb)))),
          rem := some (u32 (trem (s32 (s.readReg ra)) (s32 (s.readReg rb)))), pc := s.pc + 4 }
  | jump {r : Byte} {q : Fin 32} (hr : r.toNat = q.val) : Completes s (.jump r) { pc := s.readReg q }
  | jumpForward {r : Byte} {q : Fin 32} (hr : r.toNat = q.val) :
      Completes s (.jumpForward r) { pc := s.pc + 2 + s.readReg q }
  | jumpIfEqual {r : Byte} {q : Fin 32} (hr : r.toNat = q.val) :
      Completes s (.jumpIfEqual r) { pc := if s.flag then s.readReg q else s.pc + 2 }
  | equal {a b pad : Byte} {ra rb : Fin 32} (ha : a.toNat = ra.val) (hb : b.toNat = rb.val) :
      Completes s (.equal a b pad)
        { flag := some (decide (s32 (s.readReg ra) = s32 (s.readReg rb))), pc := s.pc + 4 }
  | notEqual {a b pad : Byte} {ra rb : Fin 32} (ha : a.toNat = ra.val) (hb : b.toNat = rb.val) :
      Completes s (.notEqual a b pad)
        { flag := some (decide (s32 (s.readReg ra) ≠ s32 (s.readReg rb))), pc := s.pc + 4 }
  | greaterThan {a b pad : Byte} {ra rb : Fin 32} (ha : a.toNat = ra.val) (hb : b.toNat = rb.val) :
      Completes s (.greaterThan a b pad)
        { flag := some (decide (s32 (s.readReg ra) > s32 (s.readReg rb))), pc := s.pc + 4 }
  | lessThan {a b pad : Byte} {ra rb : Fin 32} (ha : a.toNat = ra.val) (hb : b.toNat = rb.val) :
      Completes s (.lessThan a b pad)
        { flag := some (decide (s32 (s.readReg ra) < s32 (s.readReg rb))), pc := s.pc + 4 }
  | greaterOrEqual {a b pad : Byte} {ra rb : Fin 32} (ha : a.toNat = ra.val) (hb : b.toNat = rb.val) :
      Completes s (.greaterOrEqual a b pad)
        { flag := some (decide (s32 (s.readReg ra) ≥ s32 (s.readReg rb))), pc := s.pc + 4 }
  | lessOrEqual {a b pad : Byte} {ra rb : Fin 32} (ha : a.toNat = ra.val) (hb : b.toNat = rb.val) :
      Completes s (.lessOrEqual a b pad)
        { flag := some (decide (s32 (s.readReg ra) ≤ s32 (s.readReg rb))), pc := s.pc + 4 }
  | illegalOpcode {op : Byte} :
      Completes s (.illegalOpcode op) { pc := s.pc + 1, event := some (.illegalOpcode s.pc op) }

/-- `Traps s i c`: `i`, begun in `s`, raises `c`: its first bad index field, or a divisor that Div does not take
(60_exceptions.md R172, R174, R177, R178). -/
inductive Traps (s : State) : Instr → Cause → Prop
  | badIndex {i : Instr} {j : Byte} (hj : firstBadIndex i = some j) : Traps s i (.registerIndexOutOfRange j)
  | divideByZero {a b d : Byte} {ra rb rd : Fin 32} (ha : a.toNat = ra.val) (hb : b.toNat = rb.val)
      (hd : d.toNat = rd.val) (hzero : s32 (s.readReg rb) = 0) : Traps s (.div a b d) (.divideByZero b)
  | divideOverflow {a b d : Byte} {ra rb rd : Fin 32} (ha : a.toNat = ra.val) (hb : b.toNat = rb.val)
      (hd : d.toNat = rd.val) (hmin : s32 (s.readReg ra) = -2147483648) (hneg : s32 (s.readReg rb) = -1) :
      Traps s (.div a b d) (.divideOverflow b)

/-! ### The two relations say what the model does -/

theorem aluDiv_min_neg_one (b : Byte) :
    aluDiv Config.divOverflowMode b (-2147483648) (-1) = .error (.divideOverflow b) := rfl

theorem exec_of_completes {s : State} {i : Instr} {w : Writes} (h : Completes s i w) :
    exec i s = .next (w.apply s) := by
  cases h with
  | halt | illegalOpcode => rfl
  | load hd => rw [exec, execLoad, loadBody_of_lt hd]; rfl
  | add ha hb hd => rw [exec, execAdd, arithBody_of_lt _ ha hb hd]; rfl
  | sub ha hb hd => rw [exec, execSub, arithBody_of_lt _ ha hb hd]; rfl
  | mul ha hb hd => rw [exec, execMul, arithBody_of_lt _ ha hb hd]; rfl
  | div ha hb hd hzero hover => rw [exec, execDiv, arithBody_of_lt _ ha hb hd, aluDiv_quotient _ _ hzero hover]; rfl
  | jump hr => exact execJump_of_lt hr s
  | jumpForward hr => exact execJumpForward_of_lt hr s
  | jumpIfEqual hr => exact execJumpIfEqual_of_lt hr s
  | equal ha hb => exact congrArg (finish s) (compareBody_of_lt relEqual ha hb s)
  | notEqual ha hb => exact congrArg (finish s) (compareBody_of_lt relNotEqual ha hb s)
  | greaterThan ha hb => exact congrArg (finish s) (compareBody_of_lt relGreaterThan ha hb s)
  | lessThan ha hb => exact congrArg (finish s) (compareBody_of_lt relLessThan ha hb s)
  | greaterOrEqual ha hb => exact congrArg (finish s) (compareBody_of_lt relGreaterOrEqual ha hb s)
  | lessOrEqual ha hb => exact congrArg (finish s) (compareBody_of_lt relLessOrEqual ha hb s)

/-! ### The first bad index field -/

/-- Where no field is bad, every field selects a register. -/
theorem exists_reg_of_no_bad {fields : List Byte} (h : fields.find? (fun x => decide (32 ≤ x.toNat)) = none) :
    ∀ x ∈ fields, ∃ r : Fin 32, x.toNat = r.val := fun x hx =>
  ⟨⟨x.toNat, by simpa using List.find?_eq_none.mp h x hx⟩, rfl⟩

theorem exists_regs_of_no_bad₂ {a b : Byte} (h : [a, b].find? (fun x => decide (32 ≤ x.toNat)) = none) :
    ∃ ra rb : Fin 32, a.toNat = ra.val ∧ b.toNat = rb.val := by
  obtain ⟨ra, ha⟩ := exists_reg_of_no_bad h a (by simp)
  obtain ⟨rb, hb⟩ := exists_reg_of_no_bad h b (by simp)
  exact ⟨ra, rb, ha, hb⟩

theorem exists_regs_of_no_bad₃ {a b d : Byte} (h : [a, b, d].find? (fun x => decide (32 ≤ x.toNat)) = none) :
    ∃ ra rb rd : Fin 32, a.toNat = ra.val ∧ b.toNat = rb.val ∧ d.toNat = rd.val := by
  obtain ⟨ra, ha⟩ := exists_reg_of_no_bad h a (by simp)
  obtain ⟨rb, hb⟩ := exists_reg_of_no_bad h b (by simp)
  obtain ⟨rd, hd⟩ := exists_reg_of_no_bad h d (by simp)
  exact ⟨ra, rb, rd, ha, hb, hd⟩

/-- A field that selects a register is no bad index. -/
theorem decide_bad_of_lt {x : Byte} {r : Fin 32} (h : x.toNat = r.val) : decide (32 ≤ x.toNat) = false :=
  decide_eq_false (by omega)

theorem le_toNat_of_bad {fields : List Byte} {j : Byte}
    (hj : fields.find? (fun x => decide (32 ≤ x.toNat)) = some j) : 32 ≤ j.toNat :=
  of_decide_eq_true (List.find?_some hj :)

theorem regIndex_of_bad {a j : Byte} (hj : [a].find? (fun x => decide (32 ≤ x.toNat)) = some j) :
    regIndex a = .error (.registerIndexOutOfRange j) := by
  obtain rfl : j = a := List.mem_singleton.mp (List.mem_of_find?_eq_some hj)
  exact regIndex_of_ge (le_toNat_of_bad hj)

theorem arithBody_of_bad {op : Int → Int → Except Cause AluResult} {a b d j : Byte} {s : State}
    (hj : [a, b, d].find? (fun x => decide (32 ≤ x.toNat)) = some j) :
    arithBody op a b d s = .error (.registerIndexOutOfRange j) := by
  rcases regsABD_cases a b d with ⟨ra, rb, rd, ha, hb, hd, -⟩ | ⟨k, hk, e⟩
  · simp [decide_bad_of_lt ha, decide_bad_of_lt hb, decide_bad_of_lt hd] at hj
  · cases hj.symm.trans hk
    rw [arithBody, e]

theorem compareBody_of_bad {rel : Int → Int → Bool} {a b j : Byte} {s : State}
    (hj : [a, b].find? (fun x => decide (32 ≤ x.toNat)) = some j) :
    compareBody rel a b s = .error (.registerIndexOutOfRange j) := by
  rcases regsABX_cases a b with ⟨ra, rb, ha, hb, -⟩ | ⟨k, hk, e⟩
  · simp [decide_bad_of_lt ha, decide_bad_of_lt hb] at hj
  · cases hj.symm.trans hk
    rw [compareBody, e]

/-- The first bad index field of an instruction is what its body raises, before it reads or writes anything (R178). -/
theorem exec_of_firstBadIndex {i : Instr} {j : Byte} (s : State) (hj : firstBadIndex i = some j) :
    exec i s = .next (raise (.registerIndexOutOfRange j) s) := by
  cases i with
  | halt | illegalOpcode => cases hj
  | load => rw [exec, execLoad, loadBody, regIndex_of_bad hj, finish_error]
  | add | sub | mul | div => exact congrArg (finish s) (arithBody_of_bad hj)
  | jump => rw [exec, execJump, readOperandR, regIndex_of_bad hj]; rfl
  | jumpForward => rw [exec, execJumpForward, readOperandR, regIndex_of_bad hj]; rfl
  | jumpIfEqual => rw [exec, execJumpIfEqual, readOperandR, regIndex_of_bad hj]; rfl
  | equal | notEqual | greaterThan | lessThan | greaterOrEqual | lessOrEqual =>
    exact congrArg (finish s) (compareBody_of_bad hj)

theorem exec_of_traps {s : State} {i : Instr} {c : Cause} (h : Traps s i c) : exec i s = .next (raise c s) := by
  cases h with
  | badIndex hj => exact exec_of_firstBadIndex s hj
  | divideByZero ha hb hd hzero => rw [exec, execDiv, arithBody_of_lt _ ha hb hd, hzero, aluDiv_zero]; rfl
  | divideOverflow ha hb hd hmin hneg =>
    rw [exec, execDiv, arithBody_of_lt _ ha hb hd, hmin, hneg, aluDiv_min_neg_one]
    rfl

/-! ### There is no third way -/

/-- Every instruction in every state completes or traps. -/
theorem completes_or_traps (i : Instr) (s : State) : (∃ w, Completes s i w) ∨ ∃ c, Traps s i c := by
  cases hbad : firstBadIndex i with
  | some j => exact .inr ⟨_, .badIndex hbad⟩
  | none =>
    cases i with
    | halt => exact .inl ⟨_, .halt⟩
    | illegalOpcode => exact .inl ⟨_, .illegalOpcode⟩
    | load d =>
      obtain ⟨rd, hd⟩ := exists_reg_of_no_bad hbad d (List.mem_singleton_self d)
      exact .inl ⟨_, .load hd⟩
    | add | sub | mul =>
      obtain ⟨ra, rb, rd, ha, hb, hd⟩ := exists_regs_of_no_bad₃ hbad
      exact .inl ⟨_, by constructor <;> assumption⟩
    | div =>
      obtain ⟨ra, rb, rd, ha, hb, hd⟩ := exists_regs_of_no_bad₃ hbad
      by_cases hzero : s32 (s.readReg rb) = 0
      · exact .inr ⟨_, .divideByZero ha hb hd hzero⟩
      · by_cases hover : s32 (s.readReg ra) = -2147483648 ∧ s32 (s.readReg rb) = -1
        · exact .inr ⟨_, .divideOverflow ha hb hd hover.1 hover.2⟩
        · exact .inl ⟨_, .div ha hb hd hzero hover⟩
    | jump r | jumpForward r | jumpIfEqual r =>
      obtain ⟨q, hr⟩ := exists_reg_of_no_bad hbad r (List.mem_singleton_self r)
      exact .inl ⟨_, by constructor; assumption⟩
    | equal | notEqual | greaterThan | lessThan | greaterOrEqual | lessOrEqual =>
      obtain ⟨ra, rb, ha, hb⟩ := exists_regs_of_no_bad₂ hbad
      exact .inl ⟨_, by constructor <;> assumption⟩

/-- The two ways an instruction goes: it completes, or it takes the fault it raises. -/
theorem exec_cases {i : Instr} {s t : State} (h : exec i s = .next t) :
    (∃ w, Completes s i w ∧ t = w.apply s) ∨ ∃ c, Traps s i c ∧ t = raise c s := by
  rcases completes_or_traps i s with ⟨w, hw⟩ | ⟨c, hc⟩
  · cases h.symm.trans (exec_of_completes hw)
    exact .inl ⟨w, hw, rfl⟩
  · cases h.symm.trans (exec_of_traps hc)
    exact .inr ⟨c, hc, rfl⟩

theorem exec_total (i : Instr) (s : State) : ∃ t, exec i s = .next t := by
  rcases completes_or_traps i s with ⟨w, hw⟩ | ⟨c, hc⟩
  · exact ⟨_, exec_of_completes hw⟩
  · exact ⟨_, exec_of_traps hc⟩

/-- A completing instruction leaves Halted if it is Halt, else Running (R93). -/
theorem Completes.status_eq {s : State} {i : Instr} {w : Writes} (h : Completes s i w) :
    w.status = if i = .halt then .halted else .running := by
  cases h <;> rfl

theorem Completes.isFaulted_eq {s : State} {i : Instr} {w : Writes} (h : Completes s i w) (u : State) :
    (w.apply u).isFaulted = false := by
  cases h <;> rfl

/-- An instruction that does not end in a fault has completed. -/
theorem completes_of_exec {i : Instr} {s t : State} (h : exec i s = .next t) (hf : t.isFaulted = false) :
    ∃ w, Completes s i w ∧ t = w.apply s := by
  rcases exec_cases h with hw | ⟨c, -, rfl⟩
  · exact hw
  · cases hf

end Sys2Proof.Machine

/-! ## What completes, and with what

The statements about one instruction's result: what `Completes` says of it, in the words of the rule files. -/

namespace Sys2Proof.Machine

/-! ### Load and the arithmetic instructions -/

theorem zext16_eq_ofNat (imm : BitVec 16) : zext16 imm = BitVec.ofNat 32 imm.toNat :=
  (BitVec.ofNat_toNat 32 imm).symm

/-- Settles O17: Load's completion, the zero extension written as a number. -/
theorem loadCompletes : Obligations.LoadCompletes := by
  intro s d imm rd hd
  rw [← zext16_eq_ofNat]
  exact exec_of_completes (.load hd)

/-- Settles O19, one completion each. -/
theorem addSubMulComplete : Obligations.AddSubMulComplete := fun _ _ _ _ _ _ _ ha hb hd =>
  ⟨exec_of_completes (.add ha hb hd), exec_of_completes (.sub ha hb hd), exec_of_completes (.mul ha hb hd)⟩

/-- The remainder of 00_scope.md R10 is the one that goes with the truncated quotient. -/
theorem trem_eq_tmod (n d : Int) : trem n d = n.tmod d := (Int.tmod_def n d).symm

/-- Settles O20: Div's completion, the remainder written with the library's `tmod`. -/
theorem divCompletes : Obligations.DivCompletes := by
  intro s a b d ra rb rd ha hb hd hzero hover
  rw [← trem_eq_tmod]
  exact exec_of_completes (.div ha hb hd hzero hover)

/-- Settles O22: the two faults of Div. -/
theorem divFaults : Obligations.DivFaults := fun _ _ _ _ _ _ _ ha hb hd =>
  ⟨fun hzero => exec_of_traps (.divideByZero ha hb hd hzero),
    fun hmin hneg => exec_of_traps (.divideOverflow ha hb hd hmin hneg)⟩

/-! ### Signed words -/

theorem s32_bounds (w : Word) : -2147483648 ≤ s32 w ∧ s32 w ≤ 2147483647 :=
  ⟨BitVec.le_toInt w, Int.le_of_lt_add_one (BitVec.toInt_lt (x := w))⟩

/-- A value that fits in 32 signed bits is read back as it is. -/
theorem s32_u32_of_fits {v : Int} (h : -2147483648 ≤ v ∧ v ≤ 2147483647) : s32 (u32 v) = v := by
  rw [s32, u32, BitVec.toInt_ofInt]
  exact Int.bmod_eq_of_le (by omega) (by omega)

/-- Settles O23: `narrow` in fault mode tests whether the value is read back from its pattern, which is whether
it fits. -/
theorem otherOverflowModes : Obligations.OtherOverflowModes := by
  refine ⟨fun opcodeByte v => ⟨fun hfits => ?_, fun hfits => ?_⟩, fun _ => rfl⟩
  · have hback : wrap32 v = v := s32_u32_of_fits hfits
    exact ⟨if_pos hback, rfl, hback⟩
  · refine if_neg fun hback => hfits ?_
    rw [← hback]
    exact s32_bounds (u32 v)

/-! ### The division identity -/

/-- The quotient of two words fits in a word, but for `-2^31 / -1`: a divisor other than -1 at least halves `-2^31`, or
is 0 or 1. -/
theorem tdiv_fits {n d : Int} (hn : -2147483648 ≤ n ∧ n ≤ 2147483647) (hover : ¬(n = -2147483648 ∧ d = -1)) :
    -2147483648 ≤ n.tdiv d ∧ n.tdiv d ≤ 2147483647 := by
  by_cases hd : 2 ≤ d.natAbs
  · have hhalf : (n.tdiv d).natAbs ≤ n.natAbs / 2 := (Int.natAbs_tdiv n d).trans_le (Nat.div_le_div_left hd (by decide))
    omega
  · obtain rfl | rfl | rfl : d = -1 ∨ d = 0 ∨ d = 1 := by omega
    · rw [Int.tdiv_neg, Int.tdiv_one]
      omega
    · rw [Int.tdiv_zero]
      omega
    · rwa [Int.tdiv_one]

theorem natAbs_tmod_lt (n : Int) {d : Int} (hd : d ≠ 0) : (n.tmod d).natAbs < d.natAbs := by
  rw [Int.natAbs_tmod]
  exact Nat.mod_lt _ (Int.natAbs_pos.mpr hd)

/-- A remainder is smaller than its divisor, so it fits in a word. -/
theorem tmod_fits (n : Int) {d : Int} (hd : -2147483648 ≤ d ∧ d ≤ 2147483647) (hzero : d ≠ 0) :
    -2147483648 ≤ n.tmod d ∧ n.tmod d ≤ 2147483647 := by
  have hlt : (n.tmod d).natAbs < d.natAbs := natAbs_tmod_lt n hzero
  omega

/-- A remainder that is not 0 has the sign of the dividend. -/
theorem tmod_eq_zero_or_pos_iff (n d : Int) : n.tmod d = 0 ∨ (0 < n.tmod d ↔ 0 < n) := by
  have hsign : (n.tmod d).sign = if d ∣ n then 0 else n.sign := Int.sign_tmod n d
  by_cases hdvd : d ∣ n
  · exact .inl (Int.sign_eq_zero_iff_zero.mp (hsign.trans (if_pos hdvd)))
  · rw [if_neg hdvd] at hsign
    exact .inr (by rw [← Int.sign_eq_one_iff_pos, hsign, Int.sign_eq_one_iff_pos])

/-- Settles O21: both results of a completing Div are read back as they are, so the identity is that of `tdiv` and
`tmod`. -/
theorem divisionIdentity : Obligations.DivisionIdentity := by
  intro s a b d ra rb rd ha hb hd hzero hover
  refine ⟨_, exec_of_completes (.div ha hb hd hzero hover), ?_⟩
  have hq := s32_u32_of_fits (tdiv_fits (s32_bounds (s.readReg ra)) hover)
  have hr := s32_u32_of_fits (tmod_fits (s32 (s.readReg ra)) (s32_bounds (s.readReg rb)) hzero)
  rw [Writes.apply_readReg_same _ rfl, Writes.apply_rem, Option.getD_some, trem_eq_tmod, tdiv, hq, hr]
  refine ⟨(Int.mul_tdiv_add_tmod _ _).symm, ?_, tmod_eq_zero_or_pos_iff _ _⟩
  rw [Int.abs_eq_natAbs, Int.abs_eq_natAbs]
  exact Int.ofNat_lt.mpr (natAbs_tmod_lt _ hzero)

/-! ### The comparisons -/

/-- Settles O27, one completion each. -/
theorem comparisonsComplete : Obligations.ComparisonsComplete := fun _ _ _ _ _ _ ha hb =>
  ⟨exec_of_completes (.equal ha hb), exec_of_completes (.notEqual ha hb), exec_of_completes (.greaterThan ha hb),
    exec_of_completes (.lessThan ha hb), exec_of_completes (.greaterOrEqual ha hb),
    exec_of_completes (.lessOrEqual ha hb)⟩

/-- Settles O28: on the six states the comparisons leave, the laws are those of the order of the integers. -/
theorem comparisonLaws : Obligations.ComparisonLaws := by
  intro s a b pad ra rb ha hb
  obtain ⟨he, hne, hgt, hlt, hge, hle⟩ := comparisonsComplete s a b pad ra rb ha hb
  refine ⟨_, _, _, _, _, _, he, hne, hgt, hlt, hge, hle, ?_⟩
  generalize s32 (s.readReg ra) = va
  generalize s32 (s.readReg rb) = vb
  rcases lt_trichotomy va vb with h | h | h
  · simp [h, h.ne, h.not_gt, h.le]
  · simp [h]
  · simp [h, h.ne', h.not_gt, h.le]

/-! ### The jumps -/

/-- Settles O24: Jump's completion. -/
theorem jumpCompletes : Obligations.JumpCompletes := fun _ _ _ hr => exec_of_completes (.jump hr)

/-- Adding a pattern to `pc + 2` modulo `2^32` adds its signed reading (44_jump.md R131). -/
theorem pc_add_two_add_toNat (pc v : Word) :
    ((pc + 2 + v).toNat : Int) = ((pc.toNat : Int) + 2 + s32 v) % 4294967296 := by
  have htwo : (2 : Word).toNat = 2 := rfl
  rw [s32, BitVec.toInt_eq_toNat_cond, BitVec.toNat_add, BitVec.toNat_add, htwo]
  split <;> omega

/-- Settles O25: JumpForward's completion, its target read as a number. -/
theorem jumpForwardCompletes : Obligations.JumpForwardCompletes := fun s _ q hr =>
  ⟨_, exec_of_completes (.jumpForward hr), pc_add_two_add_toNat s.pc (s.readReg q)⟩

/-- Settles O26: JumpIfEqual's completion at the two values of the flag. -/
theorem jumpIfEqualCompletes : Obligations.JumpIfEqualCompletes := by
  intro s r q hr
  have h := exec_of_completes (.jumpIfEqual (s := s) hr)
  constructor
  · intro hflag
    rwa [if_pos hflag] at h
  · intro hflag
    rwa [hflag] at h

/-- A counter at or beyond N stops the next step (R94). -/
theorem exists_step_stops {i : Instr} {s t : State} (hexec : exec i s = .next t) (hf : t.isFaulted = false)
    (hpc : t.progLen ≤ t.pc.toNat) :
    ∃ t, exec i s = .next t ∧ step t = .next { t with status := .halted } :=
  ⟨t, hexec, step_of_exhausted hf hpc⟩

/-- The pattern of a negative register lies at or beyond every N that is at most PROG_MAX (decisions D3, D18). -/
theorem progMax_le_of_neg {v : Word} (h : s32 v < 0) : Config.progMax ≤ v.toNat := by
  rw [s32, BitVec.toInt_neg_iff] at h
  have hmax : Config.progMax = 2147483648 := rfl
  omega

/-- Settles O32: each of the three jumps leaves the counter at or beyond N. -/
theorem targetsOutOfRangeEndTheRun : Obligations.TargetsOutOfRangeEndTheRun := by
  intro s r q hN hr
  refine ⟨fun hneg => ⟨?_, fun hflag => ?_⟩, fun hin hout => ?_⟩
  · exact exists_step_stops (exec_of_completes (.jump hr)) rfl (hN.trans (progMax_le_of_neg hneg))
  · refine exists_step_stops (exec_of_completes (.jumpIfEqual hr)) rfl ?_
    rw [hflag]
    exact hN.trans (progMax_le_of_neg hneg)
  · refine exists_step_stops (exec_of_completes (.jumpForward hr)) rfl ?_
    have htarget := pc_add_two_add_toNat s.pc (s.readReg q)
    have hv := s32_bounds (s.readReg q)
    have hmax : Config.progMax = 2147483648 := rfl
    show s.progLen ≤ (s.pc + 2 + s.readReg q).toNat
    omega

/-! ### Where the counter is left, and what is reported -/

/-- Settles O29, completion by completion. -/
theorem pcAfterEachInstruction : Obligations.PcAfterEachInstruction := by
  intro i s t hexec hf
  obtain ⟨w, hw, rfl⟩ := completes_of_exec hexec hf
  cases hw with
  | jump hr => exact ⟨_, hr, rfl⟩
  | jumpForward hr => exact ⟨_, hr, pc_add_two_add_toNat _ _⟩
  | jumpIfEqual hr => exact ⟨_, hr, rfl⟩
  | _ => rfl

/-- Settles O30: the status a completing instruction leaves is Halted for Halt alone. -/
theorem onlyHaltReportsStop : Obligations.OnlyHaltReportsStop := by
  intro i s t hexec hf
  obtain ⟨w, hw, rfl⟩ := completes_of_exec hexec hf
  rw [State.report, Writes.apply_status, hw.status_eq]
  by_cases hi : i = .halt
  · simp [hi]
  · simp [hi]

/-! ### Faults -/

/-- Settles O44: `raise` writes the status alone. -/
theorem firstBadIndexFaults : Obligations.FirstBadIndexFaults := fun _ s _ hj => exec_of_firstBadIndex s hj

/-- A Div whose source indices are legal and whose divisor is not traps whatever its destination index is: with the
divisor's fault, or with the bad index. -/
theorem exists_traps_iff (i : Instr) (s : State) :
    (∃ c, Traps s i c) ↔
      (∃ j, firstBadIndex i = some j) ∨
        ∃ (a b d : Byte) (ra rb : Fin 32), i = .div a b d ∧ a.toNat = ra.val ∧ b.toNat = rb.val ∧
          (s32 (s.readReg rb) = 0 ∨ (s32 (s.readReg ra) = -2147483648 ∧ s32 (s.readReg rb) = -1)) := by
  constructor
  · rintro ⟨c, h⟩
    cases h with
    | badIndex hj => exact .inl ⟨_, hj⟩
    | divideByZero ha hb hd hzero => exact .inr ⟨_, _, _, _, _, rfl, ha, hb, .inl hzero⟩
    | divideOverflow ha hb hd hmin hneg => exact .inr ⟨_, _, _, _, _, rfl, ha, hb, .inr ⟨hmin, hneg⟩⟩
  · rintro (⟨j, hj⟩ | ⟨a, b, d, ra, rb, rfl, ha, hb, hdiv⟩)
    · exact ⟨_, .badIndex hj⟩
    · rcases regIndex_cases d with ⟨rd, hd, -⟩ | ⟨hd, -⟩
      · rcases hdiv with hzero | ⟨hmin, hneg⟩
        · exact ⟨_, .divideByZero ha hb hd hzero⟩
        · exact ⟨_, .divideOverflow ha hb hd hmin hneg⟩
      · refine ⟨_, .badIndex (j := d) ?_⟩
        simp [firstBadIndex, indexFields, decide_bad_of_lt ha, decide_bad_of_lt hb, hd]

/-- An instruction leaves a faulted state exactly when it traps. -/
theorem isFaulted_iff_traps {i : Instr} {s t : State} (h : exec i s = .next t) :
    t.isFaulted = true ↔ ∃ c, Traps s i c := by
  rcases exec_cases h with ⟨w, hw, rfl⟩ | ⟨c, hc, rfl⟩
  · refine ⟨fun hf => absurd (hw.isFaulted_eq s) (by rw [hf]; decide), fun ⟨c, hc⟩ => ?_⟩
    rw [Host.Outcome.next.inj (h.symm.trans (exec_of_traps hc)), raise_isFaulted]
  · exact ⟨fun _ => ⟨c, hc⟩, fun _ => rfl⟩

/-- Settles O45: the two ways to trap are the two conditions. -/
theorem execFaultsExactlyWhen : Obligations.ExecFaultsExactlyWhen := by
  intro i s
  obtain ⟨t, ht⟩ := exec_total i s
  exact ⟨t, ht, (isFaulted_iff_traps ht).trans (exists_traps_iff i s)⟩

/-- Settles O43, cause by cause. -/
theorem faultCodes : Obligations.FaultCodes :=
  ⟨fun _ => ⟨rfl, rfl⟩, fun _ => ⟨rfl, rfl⟩, fun _ => ⟨rfl, rfl⟩, fun _ => ⟨rfl, rfl⟩, fun _ => ⟨rfl, rfl⟩⟩

end Sys2Proof.Machine

/-! ## Frames and independence

What an instruction leaves as it was, and what it does not look at: said of its `Writes`, and of a fault, which keeps
everything but the status. -/

namespace Sys2Proof.Machine

/-! ### The registers -/

/-- The register a completing instruction writes is its destination. -/
theorem Completes.reg_eq {s : State} {i : Instr} {w : Writes} (h : Completes s i w) :
    w.reg.map Prod.fst = destReg i := by
  cases h with
  | load hd | add _ _ hd | sub _ _ hd | mul _ _ hd | div _ _ hd =>
    rw [destReg, regIndex_of_lt hd]
    rfl
  | _ => rfl

/-- Settles O39: a completion writes its destination alone, and a fault writes no register. -/
theorem onlyTheDestinationRegisterChanges : Obligations.OnlyTheDestinationRegisterChanges := by
  intro i s t r h hr
  rcases exec_cases h with ⟨w, hw, rfl⟩ | ⟨c, -, rfl⟩
  · rw [← hw.reg_eq] at hr
    exact Writes.apply_readReg_other s hr
  · rfl

/-- The destination is the register of an index field. -/
theorem exists_field_of_destReg {i : Instr} {r : Fin 32} (h : destReg i = some r) :
    ∃ b ∈ indexFields i, b.toNat = r.val := by
  have select {d : Byte} (hd : (regIndex d).toOption = some r) : d.toNat = r.val := by
    rcases regIndex_cases d with ⟨q, hq, e⟩ | ⟨-, e⟩
    · rw [e] at hd
      cases hd
      exact hq
    · rw [e] at hd
      cases hd
  cases i with
  | load d => exact ⟨d, by simp [indexFields], select h⟩
  | add a b d | sub a b d | mul a b d | div a b d => exact ⟨d, by simp [indexFields], select h⟩
  | _ => cases h

/-- Only Load and the arithmetic instructions have a destination. -/
theorem destReg_eq_none {i : Instr} (h : i.opcode.format = .abx ∨ i.opcode.format = .r ∨ i.opcode.format = .z) :
    destReg i = none := by
  cases i with
  | load | add | sub | mul | div => rcases h with h | h | h <;> cases h
  | _ => rfl

theorem exec_readReg_of_no_dest {i : Instr} {s t : State} (hdest : destReg i = none) (h : exec i s = .next t)
    (r : Fin 32) : t.readReg r = s.readReg r :=
  onlyTheDestinationRegisterChanges i s t r h (hdest.trans_ne (Option.some_ne_none r).symm)

/-! ### The remainder register and the diagnostics -/

theorem Completes.rem_isSome {s : State} {i : Instr} {w : Writes} (h : Completes s i w) :
    w.rem.isSome = decide (i.opcode = .div) := by
  cases h <;> rfl

theorem Completes.rem_eq_none {s : State} {i : Instr} {w : Writes} (h : Completes s i w) (hi : i.opcode ≠ .div) :
    w.rem = none := by
  simpa [hi] using h.rem_isSome

/-- Only a completing Div changes `rem`. -/
theorem exec_rem {i : Instr} {s t : State} (h : exec i s = .next t) (hi : i.opcode ≠ .div ∨ t.isFaulted = true) :
    t.rem = s.rem := by
  rcases exec_cases h with ⟨w, hw, rfl⟩ | ⟨c, -, rfl⟩
  · rcases hi with hi | hi
    · rw [Writes.apply_rem, hw.rem_eq_none hi, Option.getD_none]
    · cases (hw.isFaulted_eq s).symm.trans hi
  · rfl

/-- The event a completing instruction emits (70_reset_and_hazards.md R216). -/
def eventOf (i : Instr) (s : State) : Option DiagEvent :=
  match i with
  | .halt => some (.halt s.pc)
  | .load _ imm => some (.load imm)
  | .illegalOpcode op => some (.illegalOpcode s.pc op)
  | .add _ _ _ | .sub _ _ _ | .mul _ _ _ | .div _ _ _ | .jump _ | .jumpForward _ | .equal _ _ _ | .notEqual _ _ _
  | .greaterThan _ _ _ | .lessThan _ _ _ | .greaterOrEqual _ _ _ | .lessOrEqual _ _ _ | .jumpIfEqual _ => none

theorem Completes.event_eq {s : State} {i : Instr} {w : Writes} (h : Completes s i w) : w.event = eventOf i s := by
  cases h <;> rfl

theorem exec_diag {i : Instr} {s t : State} (h : exec i s = .next t) :
    t.diag = s.diag ++ if t.isFaulted then [] else (eventOf i s).toList := by
  rcases exec_cases h with ⟨w, hw, rfl⟩ | ⟨c, -, rfl⟩
  · rw [Writes.apply_diag, hw.event_eq, hw.isFaulted_eq]
    rfl
  · exact (List.append_nil _).symm

/-- An instruction without an event leaves the diagnostics. -/
theorem exec_diag_of_no_event {i : Instr} {s t : State} (hi : eventOf i s = none) (h : exec i s = .next t) :
    t.diag = s.diag := by
  rw [exec_diag h, hi, Option.toList_none, ite_self, List.append_nil]

/-! ### The frames -/

/-- Settles O34: Load's destination is the register its one field selects. -/
theorem loadFrame : Obligations.LoadFrame := by
  intro d imm s t h
  have hsame : SameProgram s t := exec_sameProgram h
  refine ⟨fun r hr => ?_, exec_rem h (.inl Opcode.noConfusion),
    exec_flag_of_not_abx Format.noConfusion h, hsame.2, hsame.progByte_eq⟩
  refine onlyTheDestinationRegisterChanges _ s t r h fun hdest => hr ?_
  obtain ⟨b, hb, hbr⟩ := exists_field_of_destReg hdest
  cases List.mem_singleton.mp hb
  exact hbr

/-- Settles O35: comparisons and jumps have no destination and no event. -/
theorem comparisonAndJumpFrame : Obligations.ComparisonAndJumpFrame := by
  intro i s t hfmt h
  have hsame : SameProgram s t := exec_sameProgram h
  have hdest : destReg i = none := destReg_eq_none (hfmt.imp_right .inl)
  have hdiv : i.opcode ≠ .div := fun e => by rw [e] at hfmt; revert hfmt; decide
  have hevent : eventOf i s = none := by
    cases i with
    | halt | load | illegalOpcode => rcases hfmt with hfmt | hfmt <;> cases hfmt
    | _ => rfl
  exact ⟨exec_readReg_of_no_dest hdest h, exec_rem h (.inl hdiv),
    fun hr => exec_flag_of_not_abx (by rw [hr]; decide) h, exec_diag_of_no_event hevent h, hsame.2, hsame.progByte_eq⟩

/-- Settles O36: Halt and IllegalOpcode have no destination. -/
theorem haltAndIllegalOpcodeFrame : Obligations.HaltAndIllegalOpcodeFrame := by
  intro i s t hfmt h
  have hsame : SameProgram s t := exec_sameProgram h
  have hdest : destReg i = none := destReg_eq_none (.inr (.inr hfmt))
  have hdiv : i.opcode ≠ .div := fun e => by rw [e] at hfmt; revert hfmt; decide
  exact ⟨exec_readReg_of_no_dest hdest h, exec_rem h (.inl hdiv), exec_flag_of_not_abx (by rw [hfmt]; decide) h,
    hsame.2, hsame.progByte_eq⟩

/-! ### What an instruction reads -/

/-- `u` agrees with `s` on everything `i` reads: the counter, the flag and the registers its index fields name. -/
structure SameReads (i : Instr) (s u : State) : Prop where
  pc : u.pc = s.pc
  flag : u.flag = s.flag
  reg : ∀ b ∈ indexFields i, ∀ r : Fin 32, b.toNat = r.val → u.readReg r = s.readReg r

/-- Two states that agree on what an instruction reads see it make the same writes. -/
theorem Completes.of_sameReads {s u : State} {i : Instr} {w : Writes} (hread : SameReads i s u)
    (h : Completes s i w) : Completes u i w := by
  obtain ⟨hpc, hflag, hreg⟩ := hread
  cases h with
  | halt => rw [← hpc]; exact .halt
  | illegalOpcode => rw [← hpc]; exact .illegalOpcode
  | load hd => rw [← hpc]; exact .load hd
  | add ha hb hd | sub ha hb hd | mul ha hb hd =>
    rw [← hpc, ← hreg _ (.head _) _ ha, ← hreg _ (.tail _ (.head _)) _ hb]
    constructor <;> assumption
  | div ha hb hd hzero hover =>
    have hva := hreg _ (.head _) _ ha
    have hvb := hreg _ (.tail _ (.head _)) _ hb
    rw [← hvb] at hzero
    rw [← hva, ← hvb] at hover
    rw [← hpc, ← hva, ← hvb]
    exact .div ha hb hd hzero hover
  | equal ha hb | notEqual ha hb | greaterThan ha hb | lessThan ha hb | greaterOrEqual ha hb | lessOrEqual ha hb =>
    rw [← hpc, ← hreg _ (.head _) _ ha, ← hreg _ (.tail _ (.head _)) _ hb]
    constructor <;> assumption
  | jump hr => rw [← hreg _ (.head _) _ hr]; exact .jump hr
  | jumpForward hr => rw [← hpc, ← hreg _ (.head _) _ hr]; exact .jumpForward hr
  | jumpIfEqual hr => rw [← hpc, ← hflag, ← hreg _ (.head _) _ hr]; exact .jumpIfEqual hr

/-- Two states that agree on what an instruction reads see it raise the same fault. -/
theorem Traps.of_sameReads {s u : State} {i : Instr} {c : Cause} (hread : SameReads i s u) (h : Traps s i c) :
    Traps u i c := by
  cases h with
  | badIndex hj => exact .badIndex hj
  | divideByZero ha hb hd hzero =>
    exact .divideByZero ha hb hd (hread.reg _ (.tail _ (.head _)) _ hb ▸ hzero)
  | divideOverflow ha hb hd hmin hneg =>
    exact .divideOverflow ha hb hd (hread.reg _ (.head _) _ ha ▸ hmin) (hread.reg _ (.tail _ (.head _)) _ hb ▸ hneg)

/-! ### Independence -/

theorem Writes.apply_writeReg {w : Writes} {r : Fin 32} (hr : w.reg.map Prod.fst ≠ some r) (s : State) (v : Word) :
    w.apply (s.writeReg r v) = (w.apply s).writeReg r v := by
  obtain ⟨_ | ⟨q, x⟩, _, _, _, _, _⟩ := w
  · rfl
  · have hqr : r.val ≠ q.val := fun e => hr (congrArg some (Fin.ext e.symm))
    have hregs := Vector.set_comm (xs := s.regs) (hi := r.isLt) (hj := q.isLt) v x hqr
    exact State.eq_of_fields hregs rfl rfl rfl rfl rfl rfl rfl

/-- Settles O40: the register is neither among what is read nor the one that is written. -/
theorem registersNotNamedDoNotMatter : Obligations.RegistersNotNamedDoNotMatter := by
  intro i s t r v hr h
  have hread : SameReads i s (s.writeReg r v) := by
    refine ⟨rfl, rfl, fun b hb q hq => State.writeReg_readReg_other s v fun e => hr b hb ?_⟩
    rw [hq, e]
  rcases exec_cases h with ⟨w, hw, rfl⟩ | ⟨c, hc, rfl⟩
  · have hdest : w.reg.map Prod.fst ≠ some r := fun hdest => by
      obtain ⟨b, hb, hbr⟩ := exists_field_of_destReg (hw.reg_eq.symm.trans hdest)
      exact hr b hb hbr
    rw [exec_of_completes (hw.of_sameReads hread), Writes.apply_writeReg hdest]
  · exact exec_of_traps (hc.of_sameReads hread)

theorem Writes.apply_setRem (w : Writes) (s : State) (v : Word) :
    w.apply (s.setRem v) = if w.rem.isSome then w.apply s else (w.apply s).setRem v := by
  obtain ⟨_, _ | _, _, _, _, _⟩ := w <;> rfl

/-- No instruction reads `rem`; a completing Div overwrites it, and every other instruction passes it on. -/
theorem exec_setRem {i : Instr} {s t : State} (v : Word) (h : exec i s = .next t) :
    exec i (s.setRem v) = .next (if i.opcode = .div ∧ t.isFaulted = false then t else t.setRem v) := by
  have hread : SameReads i s (s.setRem v) := ⟨rfl, rfl, fun _ _ _ _ => rfl⟩
  rcases exec_cases h with ⟨w, hw, rfl⟩ | ⟨c, hc, rfl⟩
  · rw [exec_of_completes (hw.of_sameReads hread), Writes.apply_setRem, hw.rem_isSome, hw.isFaulted_eq]
    simp
  · have hfaulted : ¬(i.opcode = .div ∧ (raise c s).isFaulted = false) := fun ⟨_, hf⟩ => by cases hf
    rw [exec_of_traps (hc.of_sameReads hread), if_neg hfaulted]
    rfl

/-- Settles O38: `rem` is passed on by every instruction but a completing Div, which overwrites it. -/
theorem remainderIsWrittenByDivAndReadByNone : Obligations.RemainderIsWrittenByDivAndReadByNone := by
  refine ⟨rfl, fun i s t => exec_rem, fun i s t v => exec_setRem v, fun a b d ra rb s t ha hb h hf => ?_⟩
  obtain ⟨w, hw, rfl⟩ := completes_of_exec h hf
  cases hw with
  | div ha' hb' =>
    cases Fin.ext (ha.symm.trans ha')
    cases Fin.ext (hb.symm.trans hb')
    exact congrArg u32 (trem_eq_tmod _ _)

/-- No instruction reads the status; it overwrites it (log 18). -/
theorem exec_setStatus (i : Instr) (s : State) (v : Status) : exec i (s.setStatus v) = exec i s := by
  have hread : SameReads i s (s.setStatus v) := ⟨rfl, rfl, fun _ _ _ _ => rfl⟩
  rcases completes_or_traps i s with ⟨w, hw⟩ | ⟨c, hc⟩
  · rw [exec_of_completes hw]
    exact exec_of_completes (hw.of_sameReads hread)
  · rw [exec_of_traps hc]
    exact exec_of_traps (hc.of_sameReads hread)

/-- No instruction reads the diagnostics; it appends to them. -/
theorem exec_setDiag {i : Instr} {s t : State} (d : List DiagEvent) (h : exec i s = .next t) :
    ∃ e, t.diag = s.diag ++ e ∧ exec i { s with diag := d } = .next { t with diag := d ++ e } := by
  have hread : SameReads i s { s with diag := d } := ⟨rfl, rfl, fun _ _ _ _ => rfl⟩
  rcases exec_cases h with ⟨w, hw, rfl⟩ | ⟨c, hc, rfl⟩
  · refine ⟨w.event.toList, w.apply_diag s, ?_⟩
    rw [exec_of_completes (hw.of_sameReads hread)]
    exact congrArg _ (State.eq_of_fields rfl rfl rfl rfl rfl rfl rfl (w.apply_diag _))
  · refine ⟨[], (List.append_nil _).symm, ?_⟩
    rw [exec_of_traps (hc.of_sameReads hread), List.append_nil]
    rfl

end Sys2Proof.Machine

/-! ## The step

Every step has a next state; what the status and the diagnostics do to it; and a fault, which changes the status alone
(40_step_and_dispatch.md section 4, 60_exceptions.md section 3). -/

namespace Sys2Proof.Machine

/-- Settles O10: in each of the four arms of `step` there is a next state. -/
theorem stepIsTotal : Obligations.StepIsTotal := by
  intro s
  cases hf : s.isFaulted with
  | true => exact ⟨s, step_of_faulted hf⟩
  | false =>
    by_cases hpc : s.progLen ≤ s.pc.toNat
    · exact ⟨_, step_of_exhausted hf hpc⟩
    · cases hi : fetchInstr s with
      | error c => exact ⟨_, step_of_overrun hf (Nat.lt_of_not_le hpc) hi⟩
      | ok i =>
        rw [step_of_fetched hf (Nat.lt_of_not_le hpc) hi]
        exact exec_total i s

/-! ### What the fetch reads -/

theorem fetchWindow_congr {s u : State} (h : SameProgram s u) (n : Nat) (pc : Word) :
    fetchWindow n u pc = fetchWindow n s pc := by
  induction n generalizing pc with
  | zero => rfl
  | succ n ih =>
    cases hb : s.progByte pc.toNat with
    | none => rw [fetchWindow_of_none hb, fetchWindow_of_none ((h.progByte_eq _).trans hb)]
    | some b => rw [fetchWindow_of_some hb, fetchWindow_of_some ((h.progByte_eq _).trans hb), ih]

/-- The fetch reads the program and the counter alone. -/
theorem fetchInstr_congr {s u : State} (h : SameProgram s u) (hpc : u.pc = s.pc) : fetchInstr u = fetchInstr s := by
  rw [fetchInstr, fetchInstr, hpc, fetchWindow_congr h]

/-! ### The status -/

/-- Outside Faulted a step does not read the status (decision D11). -/
theorem step_setStatus {s : State} {v : Status} (hf : s.isFaulted = false) (hv : (s.setStatus v).isFaulted = false) :
    step (s.setStatus v) = step s := by
  by_cases hpc : s.progLen ≤ s.pc.toNat
  · rw [step_of_exhausted hf hpc]
    exact step_of_exhausted hv hpc
  · have hfetch : fetchInstr (s.setStatus v) = fetchInstr s := fetchInstr_congr ⟨rfl, rfl⟩ rfl
    cases hi : fetchInstr s with
    | error c =>
      rw [step_of_overrun hf (Nat.lt_of_not_le hpc) hi]
      exact step_of_overrun hv (Nat.lt_of_not_le hpc) (hfetch.trans hi)
    | ok i =>
      rw [step_of_fetched hf (Nat.lt_of_not_le hpc) hi, ← exec_setStatus i s v]
      exact step_of_fetched hv (Nat.lt_of_not_le hpc) (hfetch.trans hi)

/-- Settles O12: the halted state is the running one with its status changed. -/
theorem stepInHaltedIsStepInRunning : Obligations.StepInHaltedIsStepInRunning := fun s =>
  step_setStatus (s := s.setStatus .running) (v := .halted) rfl rfl

/-! ### The diagnostics -/

/-- A step does the same whatever the diagnostics hold, and appends the same to them. -/
theorem step_setDiag {s t : State} (d : List DiagEvent) (h : step s = .next t) :
    ∃ e, t.diag = s.diag ++ e ∧ step { s with diag := d } = .next { t with diag := d ++ e } := by
  have hfetch : fetchInstr { s with diag := d } = fetchInstr s := fetchInstr_congr ⟨rfl, rfl⟩ rfl
  rcases step_cases h with ⟨hf, rfl⟩ | ⟨hf, hpc, rfl⟩ | ⟨hf, hpc, ⟨c, hc, rfl⟩ | ⟨i, hi, hexec⟩⟩
  · exact ⟨[], (List.append_nil _).symm, by rw [List.append_nil]; exact step_of_faulted hf⟩
  · exact ⟨[], (List.append_nil _).symm, by rw [List.append_nil]; exact step_of_exhausted hf hpc⟩
  · exact ⟨[], (List.append_nil _).symm, by rw [List.append_nil]; exact step_of_overrun hf hpc (hfetch.trans hc)⟩
  · obtain ⟨e, he, hexec'⟩ := exec_setDiag d hexec
    exact ⟨e, he, (step_of_fetched (s := { s with diag := d }) hf hpc (hfetch.trans hi)).trans hexec'⟩

/-- Settles O42: a step passes the stream on, and `eventOf` is what an instruction that completes appends. -/
theorem diagnosticsAreWriteOnly : Obligations.DiagnosticsAreWriteOnly := by
  refine ⟨fun s t d h => step_setDiag d h, fun i s t h => ?_⟩
  rw [exec_diag h]
  cases i <;> rfl

/-! ### Precise faults -/

/-- A step that faults has taken a fault in the state it began in. -/
theorem step_faulted_cases {s t : State} (hf : s.isFaulted = false) (h : step s = .next t) (ht : t.isFaulted = true) :
    ∃ c, t = raise c s ∧ s.pc.toNat < s.progLen ∧ (fetchInstr s = .error c ∨ ∃ i, Traps s i c) := by
  rcases step_cases h with ⟨hf', -⟩ | ⟨-, -, rfl⟩ | ⟨-, hpc, ⟨c, hc, rfl⟩ | ⟨i, -, hexec⟩⟩
  · cases hf.symm.trans hf'
  · cases ht
  · exact ⟨c, rfl, hpc, .inl hc⟩
  · rcases exec_cases hexec with ⟨w, hw, rfl⟩ | ⟨c, hc, rfl⟩
    · cases (hw.isFaulted_eq s).symm.trans ht
    · exact ⟨c, rfl, hpc, .inr ⟨i, hc⟩⟩

/-- Settles O47: `raise` writes the status alone, with the counter of the state it is taken in. -/
theorem faultsArePrecise : Obligations.FaultsArePrecise := by
  intro s t hf h ht
  obtain ⟨c, hc, -⟩ := step_faulted_cases hf h ht
  exact ⟨c, hc⟩

/-- Settles O54: the state the fault left differs from the old one in the status alone, which the step does not read. -/
theorem faultComesAgain : Obligations.FaultComesAgain := by
  intro s t hf h ht
  obtain ⟨c, rfl⟩ := faultsArePrecise s t hf h ht
  exact (step_setStatus (v := .running) hf rfl).trans h

/-! ### The instruction that is cut short -/

/-- With N at most PROG_MAX the window holds the bytes up to N, as many as fit in it. -/
theorem fetchWindow_length {s : State} (hN : s.progLen ≤ Config.progMax) (n : Nat) (pc : Word) :
    (fetchWindow n s pc).length = min n (s.progLen - pc.toNat) := by
  induction n generalizing pc with
  | zero => rw [fetchWindow_zero, List.length_nil, Nat.zero_min]
  | succ n ih =>
    by_cases hpc : pc.toNat < s.progLen
    · have hb := State.progByte_of_lt hpc
      rw [fetchWindow_of_some hb, List.length_cons, ih, pc_succ_toNat hN hb]
      omega
    · rw [fetchWindow_of_none (State.progByte_of_ge (Nat.le_of_not_lt hpc)), List.length_nil]
      omega

theorem decodeR_of_length (op : Opcode) (mk : Byte → Instr) (l : List Byte) :
    (2 ≤ l.length + 1 ∧ ∃ r, decodeR op mk l = .ok (mk r)) ∨
      (l.length + 1 < 2 ∧ decodeR op mk l = .operandMissing op (l.length + 1)) := by
  match l with
  | [] => exact .inr ⟨by decide, rfl⟩
  | r :: _ => exact .inl ⟨by simp, r, rfl⟩

theorem decodeDI_of_length (op : Opcode) (mk : Byte → BitVec 16 → Instr) (l : List Byte) :
    (4 ≤ l.length + 1 ∧ ∃ d imm, decodeDI op mk l = .ok (mk d imm)) ∨
      (l.length + 1 < 4 ∧ decodeDI op mk l = .operandMissing op (l.length + 1)) := by
  match l with
  | [] | [_] | [_, _] => exact .inr ⟨by simp, rfl⟩
  | d :: hi :: lo :: _ => exact .inl ⟨by simp, d, bigEndian16 hi lo, rfl⟩

theorem decodeThree_of_length (op : Opcode) (mk : Byte → Byte → Byte → Instr) (l : List Byte) :
    (4 ≤ l.length + 1 ∧ ∃ x y z, decodeThree op mk l = .ok (mk x y z)) ∨
      (l.length + 1 < 4 ∧ decodeThree op mk l = .operandMissing op (l.length + 1)) := by
  match l with
  | [] | [_] | [_, _] => exact .inr ⟨by simp, rfl⟩
  | x :: y :: z :: _ => exact .inl ⟨by simp, x, y, z, rfl⟩

/-- From a list of as many bytes as the opcode's format the decoder reads an instruction of that opcode; from a shorter
one it reports how many bytes there were. -/
theorem decode_cons_cases (b : Byte) (l : List Byte) :
    ((decodeOpcode b).format.length ≤ l.length + 1 ∧ ∃ i, decode (b :: l) = .ok i ∧ i.opcode = decodeOpcode b) ∨
      (l.length + 1 < (decodeOpcode b).format.length ∧
        decode (b :: l) = .operandMissing (decodeOpcode b) (l.length + 1)) := by
  rw [decode]
  cases decodeOpcode b with
  | halt | illegalOpcode => exact .inl ⟨Nat.le_add_left 1 _, _, rfl, rfl⟩
  | jump | jumpForward | jumpIfEqual =>
    exact (decodeR_of_length _ _ l).imp_left fun ⟨hle, r, e⟩ => ⟨hle, _, e, rfl⟩
  | load => exact (decodeDI_of_length _ _ l).imp_left fun ⟨hle, d, imm, e⟩ => ⟨hle, _, e, rfl⟩
  | add | sub | mul | div | equal | notEqual | greaterThan | lessThan | greaterOrEqual | lessOrEqual =>
    exact (decodeThree_of_length _ _ l).imp_left fun ⟨hle, x, y, z, e⟩ => ⟨hle, _, e, rfl⟩

/-- At an opcode byte in the buffer the fetch gives an instruction of that opcode if its bytes fit before N, and else
faults with N (60_exceptions.md R173, decision D9). -/
theorem fetchInstr_cases {s : State} {b : Byte} (hN : s.progLen ≤ Config.progMax)
    (hb : s.progByte s.pc.toNat = some b) :
    (s.pc.toNat + (decodeOpcode b).format.length ≤ s.progLen ∧
        ∃ i, fetchInstr s = .ok i ∧ i.opcode = decodeOpcode b) ∨
      (s.progLen < s.pc.toNat + (decodeOpcode b).format.length ∧
        fetchInstr s = .error (.fetchOverrun (BitVec.ofNat 32 s.progLen))) := by
  have hpc : s.pc.toNat < s.progLen := State.lt_of_progByte hb
  have hwin : fetchWindow maxInstrLength s s.pc = b :: fetchWindow 3 s (s.pc + 1) := fetchWindow_of_some hb 3
  have hlen : (fetchWindow 3 s (s.pc + 1)).length = min 3 (s.progLen - (s.pc.toNat + 1)) := by
    rw [fetchWindow_length hN, pc_succ_toNat hN hb]
  have hmax : (decodeOpcode b).format.length ≤ 4 := (format_length_bounds _).2
  rcases decode_cons_cases b (fetchWindow 3 s (s.pc + 1)) with ⟨hle, i, hdec, hop⟩ | ⟨hlt, hdec⟩
  · exact .inl ⟨by omega, i, fetchInstr_of_decode (hwin ▸ hdec), hop⟩
  · refine .inr ⟨by omega, ?_⟩
    rw [fetchInstr, hwin, hdec]
    refine congrArg (Except.error ∘ Cause.fetchOverrun) (BitVec.eq_of_toNat_eq ?_)
    rw [BitVec.toNat_add, BitVec.toNat_ofNat, BitVec.toNat_ofNat]
    omega

/-- FetchOverrun belongs to the fetch: no instruction raises it. -/
theorem exec_not_fetchOverrun {i : Instr} {s t : State} (h : exec i s = .next t) (o p : Word) :
    t.status ≠ .faulted (.fetchOverrun o) p := by
  intro ht
  rcases exec_cases h with ⟨w, hw, rfl⟩ | ⟨c, hc, rfl⟩
  · have hf := State.isFaulted_iff _ |>.mpr ⟨_, _, ht⟩
    cases (hw.isFaulted_eq s).symm.trans hf
  · cases ht
    cases hc

/-- Settles O46: the two clauses are the two cases of the fetch. -/
theorem fetchOverrunExactlyWhenCutShort : Obligations.FetchOverrunExactlyWhenCutShort := by
  intro s b hN hf hb
  have hpc : s.pc.toNat < s.progLen := State.lt_of_progByte hb
  rcases fetchInstr_cases hN hb with ⟨hfit, i, hi, hop⟩ | ⟨hcut, hc⟩
  · have hstep : step s = exec i s := step_of_fetched hf hpc hi
    exact ⟨fun hcut => absurd hfit (Nat.not_le_of_lt hcut),
      fun _ => ⟨⟨i, hop, hstep⟩, fun t o p ht => exec_not_fetchOverrun (hstep ▸ ht) o p⟩⟩
  · exact ⟨fun _ => step_of_overrun hf hpc hc, fun hfit => absurd hfit (Nat.not_le_of_lt hcut)⟩

end Sys2Proof.Machine

/-! ## The invariant

The program buffer and N are kept by every step, so what is to show is that a fault records what the state it keeps
shows (60_exceptions.md sections 3 and 6). -/

namespace Sys2Proof.Machine

/-- A fault of an instruction is shown by the state it was raised in. -/
theorem Traps.explains {s : State} {i : Instr} {c : Cause} (h : Traps s i c) : c.explains s := by
  cases h with
  | badIndex hj => exact le_toNat_of_bad hj
  | divideByZero _ hb _ hzero => exact ⟨_, regIndex_of_lt hb, hzero⟩
  | divideOverflow _ hb _ _ hneg => exact ⟨_, regIndex_of_lt hb, hneg⟩

/-- A fault of the fetch is shown by the state it was raised in. -/
theorem fetchInstr_error_explains {s : State} {c : Cause} (hN : s.progLen ≤ Config.progMax)
    (hpc : s.pc.toNat < s.progLen) (h : fetchInstr s = .error c) : c.explains s := by
  rcases fetchInstr_cases hN (State.progByte_of_lt hpc) with ⟨-, i, hi, -⟩ | ⟨-, hc⟩
  · cases h.symm.trans hi
  · cases h.symm.trans hc
    have hmax : Config.progMax = 2147483648 := rfl
    exact Nat.mod_eq_of_lt (show s.progLen < 2 ^ 32 by omega)

/-- Taking a fault keeps all that shows its cause. -/
theorem explains_raise (c c' : Cause) (s : State) : c.explains (raise c' s) ↔ c.explains s := by
  cases c <;> exact Iff.rfl

/-- The invariant is kept by a change that keeps the program and leaves no fault, or takes one that the state shows. -/
theorem State.Inv.of_sameProgram {s t : State} (h : s.Inv) (hsame : SameProgram s t)
    (hfault : ∀ c p, t.status = .faulted c p → p = t.pc ∧ t.pc.toNat < t.progLen ∧ c.explains t) : t.Inv := by
  obtain ⟨hprog, hlen⟩ := hsame
  exact ⟨hprog ▸ h.canonical, hprog ▸ hlen ▸ h.inside, hlen ▸ h.bounded, hfault⟩

theorem not_faulted_of_isFaulted_eq_false {s : State} (h : s.isFaulted = false) (c : Cause) (p : Word) :
    s.status ≠ .faulted c p := fun hs => by
  cases h.symm.trans ((State.isFaulted_iff s).mpr ⟨c, p, hs⟩)

/-- Settles O55: a state that a step leaves is faulted already, not faulted, or `raise` of a cause that the old state
shows. -/
theorem everyStepKeepsTheInvariant : Obligations.EveryStepKeepsTheInvariant := by
  intro s t hinv h
  cases hf : s.isFaulted with
  | true =>
    cases h.symm.trans (step_of_faulted hf)
    exact hinv
  | false =>
    refine hinv.of_sameProgram (step_sameProgram h) fun c p ht => ?_
    obtain ⟨c', rfl, hpc, hcause⟩ := step_faulted_cases hf h ((State.isFaulted_iff t).mpr ⟨c, p, ht⟩)
    cases ht
    refine ⟨rfl, hpc, (explains_raise c c s).mpr ?_⟩
    rcases hcause with hc | ⟨i, hc⟩
    · exact fetchInstr_error_explains hinv.bounded hpc hc
    · exact hc.explains

/-- Settles O2: the reset buffer is empty and the reset status is Running. -/
theorem resetSatisfiesTheInvariant : Obligations.ResetSatisfiesTheInvariant :=
  ⟨rfl, rfl, Nat.zero_le _, fun _ _ h => by cases h⟩

/-- A program of at most PROG_MAX bytes has the form the invariant asks for, in any state. -/
theorem inv_of_loadProgram {s : State} {bytes : List Byte} (h : bytes.length ≤ Config.progMax) :
    ((s.setProgram (Memory.ofBytes 0 bytes) bytes.length).setStatus .running).Inv where
  canonical := Memory.ofBytes_wf 0 bytes
  inside := by simpa using Memory.ofBytes_below 0 bytes
  bounded := h
  faultShown := fun _ _ hs => by cases hs

theorem applyHostOp_inv {s t : State} (op : HostOp) (hinv : s.Inv) (h : applyHostOp op s = .next t) : t.Inv := by
  cases op with
  | reset =>
    cases h
    exact resetSatisfiesTheInvariant
  | step => exact everyStepKeepsTheInvariant s t hinv h
  | loadProgram bytes =>
    rcases loadProgram_cases bytes s with ⟨-, e⟩ | ⟨-, -, e⟩ | ⟨-, hlen, e⟩
    · cases h.symm.trans e
    · cases h.symm.trans e
    · cases h.symm.trans e
      exact inv_of_loadProgram hlen
  | poke target v =>
    rcases poke_cases target v s with ⟨-, e⟩ | ⟨hf, ⟨r, -, e⟩ | ⟨-, e⟩⟩
    · cases h.symm.trans e
    · cases h.symm.trans e
      exact hinv.of_sameProgram ⟨rfl, rfl⟩ fun c p hs => absurd hs (not_faulted_of_isFaulted_eq_false hf c p)
    · cases h.symm.trans e
      exact hinv.of_sameProgram ⟨rfl, rfl⟩ fun c p hs => absurd hs (not_faulted_of_isFaulted_eq_false hf c p)

theorem Reachable.inv {s : State} (h : Reachable s) : s.Inv := by
  induction h with
  | reset => exact resetSatisfiesTheInvariant
  | act op _ hop ih => exact applyHostOp_inv op ih hop

/-- Settles O56: ArithmeticOverflow is a cause that no state shows. -/
theorem reachableStatesHaveTheInvariant : Obligations.ReachableStatesHaveTheInvariant := by
  intro s h
  refine ⟨h.inv, fun op p hs => ?_⟩
  obtain ⟨-, -, hshown⟩ := h.inv.faultShown _ _ hs
  exact hshown

end Sys2Proof.Machine

/-! ## The host, runs, and the program buffer

The canonical form of the buffer (log 1), what LoadProgram and Poke leave (10_state.md R35, 60_exceptions.md R191), and
how a run ends (70_reset_and_hazards.md R214). -/

namespace Sys2Proof.Machine

/-! ### The list of cells -/

theorem Memory.read_head (a : Nat) (b : Byte) (m : Memory) : Memory.read ((a, b) :: m) a = b := by
  rw [Memory.read_cons, if_pos rfl]

/-- Below its first cell a canonical list reads nothing, so an offset that reads something is not below it. -/
theorem Memory.head_le_of_read_ne {lo a k : Nat} {b : Byte} {m : Memory} (h : Memory.wfFrom lo ((a, b) :: m) = true)
    (hk : Memory.read ((a, b) :: m) k ≠ Config.unlistedByte) : a ≤ k := by
  rw [Memory.wfFrom_cons] at h
  have hfrom : Memory.wfFrom a ((a, b) :: m) = true := (Memory.wfFrom_cons a a b m).mpr ⟨le_rfl, h.2⟩
  by_contra hlt
  exact hk (Memory.read_of_lt hfrom (Nat.lt_of_not_le hlt))

/-- A canonical list that reads nothing anywhere is empty. -/
theorem Memory.eq_nil_of_read_eq {lo : Nat} {m : Memory} (h : Memory.wfFrom lo m = true)
    (hread : ∀ k, m.read k = Config.unlistedByte) : m = [] := by
  cases m with
  | nil => rfl
  | cons c m =>
    obtain ⟨a, b⟩ := c
    exact absurd ((Memory.read_head a b m).symm.trans (hread a)) ((Memory.wfFrom_cons lo a b m).mp h).2.1

/-- Two canonical lists that read alike are equal: their first cells stand at the same offset and hold the same byte,
and the rests read alike. -/
theorem Memory.eq_of_read_eq {lo : Nat} {m m' : Memory} (h : Memory.wfFrom lo m = true)
    (h' : Memory.wfFrom lo m' = true) (hread : ∀ k, m.read k = m'.read k) : m = m' := by
  induction m generalizing lo m' with
  | nil => exact (Memory.eq_nil_of_read_eq h' fun k => (hread k).symm).symm
  | cons c m ih =>
    cases m' with
    | nil => exact Memory.eq_nil_of_read_eq h hread
    | cons c' m' =>
      obtain ⟨⟨a, b⟩, ⟨a', b'⟩⟩ := c, c'
      obtain ⟨-, hb, hm⟩ := (Memory.wfFrom_cons lo a b m).mp h
      obtain ⟨-, hb', hm'⟩ := (Memory.wfFrom_cons lo a' b' m').mp h'
      have hle : a' ≤ a := Memory.head_le_of_read_ne h' (by rwa [← hread, Memory.read_head])
      have hge : a ≤ a' := Memory.head_le_of_read_ne h (by rwa [hread, Memory.read_head])
      obtain rfl : a = a' := Nat.le_antisymm hge hle
      obtain rfl : b = b' := by simpa only [Memory.read_head] using hread a
      rw [ih hm hm' fun k => ?_]
      by_cases hk : k < a + 1
      · rw [Memory.read_of_lt hm hk, Memory.read_of_lt hm' hk]
      · have hak : a ≠ k := by omega
        simpa only [Memory.read_cons, if_neg hak] using hread k

/-- Settles O51: uniqueness, and what the laws of the memory say of a write. -/
theorem canonicalMemoryIsUnique : Obligations.CanonicalMemoryIsUnique :=
  ⟨fun _ _ h h' hread => Memory.eq_of_read_eq h h' hread,
    fun _ k j v h => ⟨Memory.write_wf h k v, Memory.read_write h k v j⟩⟩

/-- A program laid out from `k` on reads, from there on, as its bytes. -/
theorem Memory.read_ofBytes (bytes : List Byte) (k j : Nat) (h : j < bytes.length) :
    (Memory.ofBytes k bytes).read (k + j) = bytes[j] := by
  induction bytes generalizing k j with
  | nil => cases h
  | cons b bytes ih =>
    have hrest : Memory.wfFrom (k + 1) (Memory.ofBytes (k + 1) bytes) = true := Memory.ofBytes_wfFrom _ _
    cases j with
    | zero =>
      show (Memory.ofBytes k (b :: bytes)).read k = b
      by_cases hb : b = Config.unlistedByte
      · rw [Memory.ofBytes, if_pos hb, Memory.read_of_lt hrest (Nat.lt_succ_self k)]
        exact hb.symm
      · rw [Memory.ofBytes, if_neg hb]
        exact Memory.read_head k b _
    | succ j =>
      have hj := ih (k + 1) j (Nat.lt_of_succ_lt_succ h)
      rw [Nat.add_right_comm, Nat.add_assoc] at hj
      by_cases hb : b = Config.unlistedByte
      · rw [Memory.ofBytes, if_pos hb]
        exact hj
      · rw [Memory.ofBytes, if_neg hb, Memory.read_cons, if_neg (by omega)]
        exact hj

/-! ### The host operations -/

/-- The buffer LoadProgram makes holds the bytes given, and nothing at or beyond their number. -/
theorem State.setProgram_progByte (s : State) (bytes : List Byte) (k : Nat) :
    (s.setProgram (Memory.ofBytes 0 bytes) bytes.length).progByte k = bytes[k]? := by
  by_cases hk : k < bytes.length
  · rw [State.progByte_of_lt hk, List.getElem?_eq_getElem hk, ← Memory.read_ofBytes bytes 0 k hk, Nat.zero_add]
    rfl
  · rw [State.progByte_of_ge (Nat.le_of_not_lt hk), List.getElem?_eq_none (Nat.le_of_not_lt hk)]

/-- Settles O49: the three ways LoadProgram goes. -/
theorem loadProgramReplacesTheBuffer : Obligations.LoadProgramReplacesTheBuffer := by
  intro s bytes hf
  rcases loadProgram_cases bytes s with ⟨hf', -⟩ | ⟨-, hlen, e⟩ | ⟨-, hlen, e⟩
  · cases hf.symm.trans hf'
  · exact ⟨fun hle => absurd hle (Nat.not_le_of_lt hlen), fun _ => e⟩
  · exact ⟨fun _ => ⟨_, e, rfl, State.setProgram_progByte s bytes, Memory.ofBytes_wf 0 bytes, rfl⟩,
      fun hlt => absurd hlen (Nat.not_le_of_lt hlt)⟩

/-- Settles O41: the register written and another one. -/
theorem registerFileReadsWhatWasWritten : Obligations.RegisterFileReadsWhatWasWritten := by
  intro s r q v
  by_cases h : q = r
  · rw [if_pos h, h, State.writeReg_readReg_same]
  · rw [if_neg h, State.writeReg_readReg_other s v (Ne.symm h)]

/-- Settles O50: Poke is `writeReg` or `setPc`. -/
theorem pokeWritesWhatItNames : Obligations.PokeWritesWhatItNames := by
  intro s v hf
  have hreg (r : Fin 32) : poke (.reg r) v s = .next (s.writeReg r v) := by simp [poke, hf]
  have hpc : poke .pc v s = .next (s.setPc v) := by simp [poke, hf]
  exact ⟨fun r => ⟨_, hreg r, rfl, State.writeReg_readReg_same s r v,
    fun q hq => State.writeReg_readReg_other s v (Ne.symm hq)⟩, hpc⟩

/-! ### Runs -/

/-- A run goes on where the step reports continue, and ends where it reports stop. -/
theorem run_succ {s t : State} (h : step s = .next t) (fuel : Nat) :
    run (fuel + 1) s = if t.report then run fuel t else .ended t := by
  rw [run, h]

/-- A faulted state reports stop. -/
theorem report_of_isFaulted {s : State} (h : s.isFaulted = true) : s.report = false := by
  obtain ⟨c, p, hs⟩ := (State.isFaulted_iff s).mp h
  rw [State.report, hs]
  rfl

/-- Settles O48: every operation but Reset tests the status first. -/
theorem faultedIsLeftOnlyByReset : Obligations.FaultedIsLeftOnlyByReset := by
  intro s hf
  have hstep : step s = .next s := step_of_faulted hf
  have hload (bytes : List Byte) : loadProgram bytes s = .refused .loadProgramInFaulted := if_pos hf
  have hpoke (target : PokeTarget) (v : Word) : poke target v s = .refused .pokeInFaulted := if_pos hf
  refine ⟨hstep, hload, hpoke, fun fuel => ?_, fun op t h => ?_⟩
  · rw [run_succ hstep, report_of_isFaulted hf]
    rfl
  · cases op with
    | reset => cases h; exact .inr rfl
    | step => cases h.symm.trans hstep; exact .inl rfl
    | loadProgram bytes => cases h.symm.trans (hload bytes)
    | poke target v => cases h.symm.trans (hpoke target v)

/-- Settles O3: the reset buffer is empty. -/
theorem firstStepAfterResetStops : Obligations.FirstStepAfterResetStops := step_of_exhausted rfl (Nat.zero_le _)

/-- Halt is fetched from a byte 0 alone. -/
theorem progByte_of_fetched_halt {s : State} (h : fetchInstr s = .ok .halt) : s.progByte s.pc.toNat = some 0 := by
  obtain ⟨-, rest, hwin⟩ := decode_ok (fetchInstr_ok h)
  cases hb : s.progByte s.pc.toNat with
  | none =>
    rw [fetchWindow_of_none hb] at hwin
    cases hwin
  | some b =>
    rw [maxInstrLength, fetchWindow_of_some hb 3] at hwin
    cases hwin
    rfl

/-- The three ways a step reports stop. -/
theorem step_stop_cases {s t : State} (h : step s = .next t) (hstop : t.report = false) :
    (s.isFaulted = false ∧ s.progLen ≤ s.pc.toNat ∧ t = { s with status := .halted }) ∨
      (s.isFaulted = false ∧ s.progByte s.pc.toNat = some 0 ∧
        t = { s with pc := s.pc + 1, status := .halted, diag := s.diag ++ [.halt s.pc] }) ∨
      t.failed := by
  rcases step_cases h with ⟨hf, rfl⟩ | ⟨hf, hpc, rfl⟩ | ⟨hf, hpc, ⟨c, hc, rfl⟩ | ⟨i, hi, hexec⟩⟩
  · exact .inr (.inr hf)
  · exact .inl ⟨hf, hpc, rfl⟩
  · exact .inr (.inr rfl)
  · cases ht : t.isFaulted with
    | true => exact .inr (.inr ht)
    | false =>
      obtain rfl : i = .halt := (onlyHaltReportsStop i s t hexec ht).mp hstop
      cases hexec
      exact .inr (.inl ⟨hf, progByte_of_fetched_halt hi, rfl⟩)

/-- Settles O52: by induction on the fuel, the run ends at the first step that reports stop. -/
theorem runEndsInOneOfThreeWays : Obligations.RunEndsInOneOfThreeWays := by
  intro fuel
  induction fuel with
  | zero => intro s t h; cases h
  | succ fuel ih =>
    intro s t h
    obtain ⟨s', hs'⟩ := stepIsTotal s
    rw [run_succ hs'] at h
    cases hreport : s'.report with
    | true =>
      rw [hreport] at h
      obtain ⟨n, u, hn, hrun, hend⟩ := ih s' t h
      refine ⟨n + 1, u, Nat.succ_lt_succ hn, ?_, hend⟩
      rw [run_succ hs', hreport]
      exact hrun
    | false =>
      rw [hreport] at h
      cases h
      have hways := step_stop_cases hs' hreport
      refine ⟨0, s, Nat.succ_pos fuel, rfl, hs', ?_, hways⟩
      rcases hways with ⟨-, -, rfl⟩ | ⟨-, -, rfl⟩ | hfail
      · exact .inl rfl
      · exact .inl rfl
      · exact .inr hfail

/-- At a byte that is a whole instruction, or past the end of the buffer, a step does not fault. -/
theorem step_not_faulted_of_operandFree {s t : State} (hf : s.isFaulted = false)
    (hbytes : ∀ k b, s.progByte k = some b → b = 0 ∨ 15 ≤ b.toNat) (h : step s = .next t) : t.isFaulted = false := by
  cases hb : s.progByte s.pc.toNat with
  | none =>
    have hpc : s.progLen ≤ s.pc.toNat := by
      by_contra hlt
      cases hb.symm.trans (State.progByte_of_lt (Nat.lt_of_not_le hlt))
    cases h.symm.trans (step_of_exhausted hf hpc)
    rfl
  | some b =>
    rcases hbytes _ b hb with rfl | hge
    · cases h.symm.trans ((haltStopsAfterItsByte s).2 hf hb)
      rfl
    · cases h.symm.trans ((illegalOpcodeSkipsOneByte s b hge).2 hf hb)
      rfl

/-- Settles O53: by induction on the fuel; a step keeps the buffer and does not fault. -/
theorem operandFreeProgramsRunSafely : Obligations.OperandFreeProgramsRunSafely := by
  intro s hf hbytes fuel
  induction fuel generalizing s with
  | zero => intro t h; cases h
  | succ fuel ih =>
    intro t h
    obtain ⟨s', hs'⟩ := stepIsTotal s
    have hf' : s'.isFaulted = false := step_not_faulted_of_operandFree hf hbytes hs'
    rw [run_succ hs'] at h
    cases hreport : s'.report with
    | true =>
      rw [hreport] at h
      exact ih s' hf' (fun k b hk => hbytes k b ((step_sameProgram hs').progByte_eq k ▸ hk)) t h
    | false =>
      rw [hreport] at h
      cases h
      rcases step_stop_cases hs' hreport with ⟨-, -, rfl⟩ | ⟨-, -, rfl⟩ | hfail
      · rfl
      · rfl
      · cases hf'.symm.trans hfail

end Sys2Proof.Machine

/-! ## The word a test bench places

`State.withFetchWord` puts bytes at `pc`, `pc + 1`, ...: the fetch window from `pc` on then holds them, and nothing but
the buffer and N has changed (log 2). -/

namespace Sys2Proof.Machine

/-- Placing bytes changes the program buffer and N alone. -/
theorem placeBytes_eq (s : State) (pc : Word) (bytes : List Byte) :
    s.placeBytes pc bytes = s.setProgram (s.placeBytes pc bytes).prog (s.placeBytes pc bytes).progLen := by
  induction bytes generalizing s pc with
  | nil => rfl
  | cons b bytes ih =>
    rw [State.placeBytes, ih]
    rfl

theorem placeBytes_pc (s : State) (pc : Word) (bytes : List Byte) : (s.placeBytes pc bytes).pc = s.pc := by
  rw [placeBytes_eq]
  rfl

/-- The first step of `placeBytes`: one byte at `pc`, N reaching past it. -/
def placeByte (s : State) (pc : Word) (b : Byte) : State :=
  s.setProgram (s.prog.write pc.toNat b) (max s.progLen (pc.toNat + 1))

theorem placeByte_progByte_same {s : State} (hwf : s.prog.wf = true) (pc : Word) (b : Byte) :
    (placeByte s pc b).progByte pc.toNat = some b := by
  have hlt : pc.toNat < (placeByte s pc b).progLen := lt_max_of_lt_right (Nat.lt_succ_self _)
  rw [State.progByte_of_lt hlt]
  exact congrArg some ((Memory.read_write hwf _ b _).trans (if_pos rfl))

theorem placeByte_progByte_other {s : State} (hwf : s.prog.wf = true) {pc a : Word} (b : Byte) {v : Byte} (h : a ≠ pc)
    (ha : s.progByte a.toNat = some v) : (placeByte s pc b).progByte a.toNat = some v := by
  have hlt : a.toNat < s.progLen := State.lt_of_progByte ha
  rw [State.progByte_of_lt hlt] at ha
  rw [State.progByte_of_lt (show a.toNat < (placeByte s pc b).progLen from lt_max_of_lt_left hlt), ← ha]
  exact congrArg some ((Memory.read_write hwf _ b _).trans (if_neg (mt BitVec.eq_of_toNat_eq h)))

/-- Bytes placed from `pc` on leave a byte at an offset they do not reach. -/
theorem placeBytes_progByte_other {s : State} (hwf : s.prog.wf = true) {a : Word} {v : Byte} (pc : Word)
    (bytes : List Byte) (h : ∀ k < bytes.length, a ≠ pc + BitVec.ofNat 32 k) (ha : s.progByte a.toNat = some v) :
    (s.placeBytes pc bytes).progByte a.toNat = some v := by
  induction bytes generalizing s pc with
  | nil => exact ha
  | cons b bytes ih =>
    have hne : a ≠ pc := by simpa using h 0 (Nat.succ_pos _)
    refine ih (s := placeByte s pc b) (Memory.write_wf hwf _ _) (pc + 1) (fun k hk => ?_)
      (placeByte_progByte_other hwf b hne ha)
    have hk' := h (k + 1) (Nat.succ_lt_succ hk)
    rwa [show pc + 1 + BitVec.ofNat 32 k = pc + BitVec.ofNat 32 (k + 1) by
      rw [BitVec.add_assoc, BitVec.ofNat_add, BitVec.add_comm 1]; rfl]

/-- The window from `pc` on holds the bytes placed there, as long as they do not come round to `pc` again. -/
theorem fetchWindow_placeBytes {s : State} (hwf : s.prog.wf = true) (pc : Word) (bytes : List Byte)
    (hlen : bytes.length < 2 ^ 32) : fetchWindow bytes.length (s.placeBytes pc bytes) pc = bytes := by
  induction bytes generalizing s pc with
  | nil => rfl
  | cons b bytes ih =>
    have hwf' : (placeByte s pc b).prog.wf = true := Memory.write_wf hwf _ _
    have hb : (s.placeBytes pc (b :: bytes)).progByte pc.toNat = some b := by
      refine placeBytes_progByte_other hwf' (pc + 1) bytes (fun k hk e => ?_) (placeByte_progByte_same hwf pc b)
      have hk' : k + 1 < 2 ^ 32 := lt_trans (Nat.succ_lt_succ hk) hlen
      have hround := congrArg BitVec.toNat e
      have hone : (1 : Word).toNat = 1 := rfl
      rw [BitVec.toNat_add, BitVec.toNat_add, BitVec.toNat_ofNat, hone] at hround
      omega
    rw [List.length_cons, fetchWindow_of_some hb]
    exact congrArg (b :: ·) (ih hwf' (pc + 1) (Nat.lt_of_succ_lt hlen))

/-- A window that decodes is not empty, so the counter is inside the buffer. -/
theorem step_of_window {s : State} {i : Instr} (hf : s.isFaulted = false)
    (h : decode (fetchWindow maxInstrLength s s.pc) = .ok i) : step s = exec i s := by
  refine step_of_fetched hf ?_ (fetchInstr_of_decode h)
  by_contra hpc
  rw [fetchWindow_of_none (State.progByte_of_ge (Nat.le_of_not_lt hpc))] at h
  cases h

theorem tableBytes_length (nbits w : Nat) : (tableBytes nbits w).length = maxInstrLength := by
  rw [tableBytes, List.length_map, List.length_range]

theorem fetchWindow_tableBytes {s : State} (hwf : s.prog.wf = true) (nbits w : Nat) :
    fetchWindow maxInstrLength (s.placeBytes s.pc (tableBytes nbits w)) s.pc = tableBytes nbits w := by
  have hlen : (tableBytes nbits w).length = maxInstrLength := tableBytes_length nbits w
  have hwin := fetchWindow_placeBytes hwf s.pc (tableBytes nbits w) (by rw [hlen]; decide)
  rwa [hlen] at hwin

theorem decodeTableWord_some {nbits w : Nat} {i : Instr} (h : decodeTableWord nbits w = some i) :
    decode (tableBytes nbits w) = .ok i := by
  unfold decodeTableWord at h
  split at h
  · cases h
    assumption
  · cases h
  · cases h

/-- `withFetchWord` places the bytes of the word, and of a faulted status makes Running. -/
theorem withFetchWord_eq (s : State) (nbits w : Nat) :
    s.withFetchWord nbits w =
      (s.placeBytes s.pc (tableBytes nbits w)).setStatus (if s.isFaulted then .running else s.status) := by
  rw [State.withFetchWord, placeBytes_eq]
  cases s.isFaulted <;> rfl

/-- Settles O14: the window of the step is the table word, whose bytes decode to `i`. -/
theorem placedWordIsTheOneTheStepRuns : Obligations.PlacedWordIsTheOneTheStepRuns := by
  intro s nbits w i hwf hdec
  rw [withFetchWord_eq]
  constructor
  · refine step_of_window ?_ ?_
    · cases hf : s.isFaulted with
      | true => rfl
      | false => exact hf
    · have hsame : SameProgram (s.placeBytes s.pc (tableBytes nbits w)) _ := ⟨rfl, rfl⟩
      rw [State.setStatus_pc, placeBytes_pc]
      exact (congrArg decode ((fetchWindow_congr hsame _ _).trans (fetchWindow_tableBytes hwf nbits w))).trans
        (decodeTableWord_some hdec)
  · intro hf
    rw [hf, placeBytes_eq]
    rfl

end Sys2Proof.Machine

/-! ## The step and the transcribed pseudocode

`step` decodes a window of bytes where `Step()` fetches byte by byte, and takes a fault where the pseudocode throws its
working copy away; both are compared after the operand bytes, one format at a time. -/

namespace Sys2Proof.Machine.Pseudo

/-- How `Step()` ends, given what the body made of the working copy (40_step_and_dispatch.md R94,
60_exceptions.md R176). -/
def conclude (s : State) (result : Except Cause (Bool × State)) : State × Bool :=
  match result with
  | .error c => (raise c s, false)
  | .ok (r, t) => (t.setStatus (if r then .running else .halted), r)

/-- The report is the one the status shows (log 4). -/
theorem conclude_report (s : State) (result : Except Cause (Bool × State)) :
    (conclude s result).2 = (conclude s result).1.report := by
  rcases result with c | ⟨_ | _, t⟩ <;> rfl

theorem Step_of_faulted {s : State} (h : s.isFaulted = true) : Step s = (s, false) := by
  obtain ⟨c, p, hs⟩ := (State.isFaulted_iff s).mp h
  rw [Step, hs]

theorem Step_of_exhausted {s : State} (h : s.isFaulted = false) (hpc : s.progLen ≤ s.pc.toNat) :
    Step s = (stopExhausted s, false) := by
  cases hs : s.status with
  | faulted c p => exact absurd hs (not_faulted_of_isFaulted_eq_false h c p)
  | running | halted => simp [Step, hs, hpc, stopExhausted]

/-- Inside the buffer `Step()` fetches the opcode byte and dispatches on it. -/
theorem Step_of_byte {s : State} {b : Byte} (h : s.isFaulted = false) (hb : s.progByte s.pc.toNat = some b) :
    Step s = conclude s (Dispatch (decodeOpcode b) s.pc (s.setPc (s.pc + 1))) := by
  have hpc : ¬ s.progLen ≤ s.pc.toNat := Nat.not_le_of_lt (State.lt_of_progByte hb)
  cases hs : s.status with
  | faulted c p => exact absurd hs (not_faulted_of_isFaulted_eq_false h c p)
  | running | halted =>
    simp only [Step, hs, hpc, if_false, StateT.run, bind_run, get_run, Fetch8_run, hb]
    rfl

/-! ### The operand bytes -/

/-- What a step makes of what the decoder read from the window. -/
def outcomeOf (s : State) (d : DecodeResult) : Host.Outcome State Fault Refusal :=
  match d with
  | .ok i => exec i s
  | .noOpcodeByte => .next (raise (.fetchOverrun s.pc) s)
  | .operandMissing _ n => .next (raise (.fetchOverrun (s.pc + BitVec.ofNat 32 n)) s)

theorem step_eq_outcomeOf {s : State} (h : s.isFaulted = false) (hpc : s.pc.toNat < s.progLen) :
    step s = outcomeOf s (decode (fetchWindow maxInstrLength s s.pc)) := by
  cases hd : decode (fetchWindow maxInstrLength s s.pc) with
  | ok i => exact step_of_fetched h hpc (fetchInstr_of_decode hd)
  | noOpcodeByte => exact step_of_overrun h hpc (by rw [fetchInstr, hd])
  | operandMissing op n => exact step_of_overrun h hpc (by rw [fetchInstr, hd])

/-- `Agrees s d code`: the step that decoded `d` from the window ends as `code`, run after the opcode byte, does. -/
def Agrees (s : State) (d : DecodeResult) (code : Code Bool) : Prop :=
  outcomeOf s d = .next (conclude s (code (s.setPc (s.pc + 1)))).1

theorem Fetch8_bind_some {α : Type} {s : State} {pc : Word} {b : Byte} (h : s.progByte pc.toNat = some b)
    (k : Byte → Code α) : (Fetch8 >>= k) (s.setPc pc) = k b (s.setPc (pc + 1)) := by
  rw [bind_run, Fetch8_run, State.setPc_progByte, State.setPc_pc, h]
  rfl

theorem Fetch8_bind_none {α : Type} {s : State} {pc : Word} (h : s.progByte pc.toNat = none) (k : Byte → Code α) :
    (Fetch8 >>= k) (s.setPc pc) = .error (.fetchOverrun pc) := by
  rw [bind_run, Fetch8_run, State.setPc_progByte, State.setPc_pc, h]

theorem pc_add_ofNat_add_one (pc : Word) (n : Nat) : pc + BitVec.ofNat 32 n + 1 = pc + BitVec.ofNat 32 (n + 1) := by
  rw [BitVec.add_assoc, BitVec.ofNat_add]
  rfl

/-- Format R: one `Fetch8` against the first byte of the window. -/
theorem agrees_decodeR {op : Opcode} {mk : Byte → Instr} {k : Byte → Code Bool} (s : State)
    (h : ∀ r, exec (mk r) s = .next (conclude s (k r (s.setPc (s.pc + 2)))).1) :
    Agrees s (decodeR op mk (fetchWindow 3 s (s.pc + 1))) (Fetch8 >>= k) := by
  have h2 : s.pc + 1 + 1 = s.pc + 2 := pc_add_ofNat_add_one s.pc 1
  rw [Agrees]
  cases hr : s.progByte (s.pc + 1).toNat with
  | none =>
    rw [Fetch8_bind_none hr, fetchWindow_of_none hr]
    rfl
  | some r =>
    rw [Fetch8_bind_some hr, fetchWindow_of_some hr, h2]
    exact h r

/-- Three operand bytes: three `Fetch8` against three bytes of the window, of which `parse` makes an instruction. -/
theorem agrees_three {op : Opcode} {parse : List Byte → DecodeResult} {mk : Byte → Byte → Byte → Instr}
    {k : Byte → Byte → Byte → Code Bool} (s : State) (hok : ∀ x y z, parse [x, y, z] = .ok (mk x y z))
    (hcut : ∀ l, l.length < 3 → parse l = .operandMissing op (l.length + 1))
    (h : ∀ x y z, exec (mk x y z) s = .next (conclude s (k x y z (s.setPc (s.pc + 4)))).1) :
    Agrees s (parse (fetchWindow 3 s (s.pc + 1)))
      (Fetch8 >>= fun x => Fetch8 >>= fun y => Fetch8 >>= fun z => k x y z) := by
  have h2 : s.pc + 1 + 1 = s.pc + 2 := pc_add_ofNat_add_one s.pc 1
  have h3 : s.pc + 2 + 1 = s.pc + 3 := pc_add_ofNat_add_one s.pc 2
  have h4 : s.pc + 3 + 1 = s.pc + 4 := pc_add_ofNat_add_one s.pc 3
  rw [Agrees]
  cases hx : s.progByte (s.pc + 1).toNat with
  | none =>
    rw [Fetch8_bind_none hx, fetchWindow_of_none hx, hcut [] (by decide)]
    rfl
  | some x =>
    rw [Fetch8_bind_some hx, fetchWindow_of_some hx, h2]
    cases hy : s.progByte (s.pc + 2).toNat with
    | none =>
      rw [Fetch8_bind_none hy, fetchWindow_of_none hy, hcut [x] (by simp)]
      rfl
    | some y =>
      rw [Fetch8_bind_some hy, fetchWindow_of_some hy, h3]
      cases hz : s.progByte (s.pc + 3).toNat with
      | none =>
        rw [Fetch8_bind_none hz, fetchWindow_of_none hz, hcut [x, y] (by simp)]
        rfl
      | some z =>
        rw [Fetch8_bind_some hz, fetchWindow_of_some hz, h4, fetchWindow_zero, hok]
        exact h x y z

/-- Formats ABD and ABX. -/
theorem agrees_decodeThree {op : Opcode} {mk : Byte → Byte → Byte → Instr} {k : Byte → Byte → Byte → Code Bool}
    (s : State) (h : ∀ x y z, exec (mk x y z) s = .next (conclude s (k x y z (s.setPc (s.pc + 4)))).1) :
    Agrees s (decodeThree op mk (fetchWindow 3 s (s.pc + 1)))
      (Fetch8 >>= fun x => Fetch8 >>= fun y => Fetch8 >>= fun z => k x y z) := by
  refine agrees_three (op := op) s (fun _ _ _ => rfl) (fun l hl => ?_) h
  exact ((decodeThree_of_length op mk l).resolve_left fun hlong => by omega).2

/-- `Fetch16` is two `Fetch8`, the first for the high half. -/
theorem Fetch16_bind {α : Type} (k : BitVec 16 → Code α) :
    Fetch16 >>= k = Fetch8 >>= fun hi => Fetch8 >>= fun lo => k (bigEndian16 hi lo) := by
  have himm (hi lo : Byte) : BitVec.ofNat 16 (hi.toNat * 256 + lo.toNat) = bigEndian16 hi lo := by
    rw [← bigEndian16_toNat, BitVec.ofNat_toNat, BitVec.setWidth_eq]
  simp only [Fetch16, bind_assoc, pure_bind, himm]

/-- Format DI: a `Fetch8` and a `Fetch16`. -/
theorem agrees_decodeDI {op : Opcode} {mk : Byte → BitVec 16 → Instr} {k : Byte → BitVec 16 → Code Bool}
    (s : State) (h : ∀ d imm, exec (mk d imm) s = .next (conclude s (k d imm (s.setPc (s.pc + 4)))).1) :
    Agrees s (decodeDI op mk (fetchWindow 3 s (s.pc + 1))) (Fetch8 >>= fun d => Fetch16 >>= fun imm => k d imm) := by
  simp only [Fetch16_bind]
  refine agrees_three (op := op) s (fun _ _ _ => rfl) (fun l hl => ?_) fun d hi lo => h d (bigEndian16 hi lo)
  exact ((decodeDI_of_length op mk l).resolve_left fun hlong => by omega).2

/-! ### The bodies after their operands -/

/-- A meaning ends as its pseudocode does if its body is what the pseudocode leaves with the status of its report. -/
theorem finish_eq_conclude {s : State} {body : Except Cause State} {result : Except Cause (Bool × State)}
    (h : body = result.map fun rt => rt.2.setStatus (if rt.1 then .running else .halted)) :
    finish s body = .next (conclude s result).1 := by
  subst h
  rcases result with c | ⟨r, t⟩ <;> rfl

/-- The counter may be moved before the ALU's result is written, as the pseudocode's fetches do. -/
theorem map_writeAlu_continueAt (s : State) (pc : Word) (d : Fin 32) (result : Except Cause AluResult) :
    (result.map fun out => (s.writeAlu d out).continueAt pc) =
      (result.map fun out => (s.setPc pc).writeAlu d out).map (·.setStatus .running) := by
  rcases result with c | ⟨v, _ | r⟩ <;> rfl

/-- The four arithmetic bodies, given that the pseudocode's operation and `SetReg` write what the ALU gives. -/
theorem agrees_arith {opc : Opcode} {mk : Byte → Byte → Byte → Instr} {alu : Byte → Int → Int → Except Cause AluResult}
    {op : Byte → Int → Int → Code Int} (s : State)
    (hexec : ∀ a b d, exec (mk a b d) s = finish s (arithBody (alu b) a b d s))
    (hop : ∀ b va vb rd u, (alu b va vb).map (fun out => u.writeAlu rd out) =
      (op b va vb u).map fun vt => vt.2.writeReg rd (u32 vt.1)) :
    Agrees s (decodeThree opc mk (fetchWindow 3 s (s.pc + 1))) (arith op) := by
  refine agrees_decodeThree s fun a b d => (hexec a b d).trans (finish_eq_conclude ?_)
  rcases regIndex_cases a with ⟨ra, ha, ea⟩ | ⟨ha, ea⟩
  · rcases regIndex_cases b with ⟨rb, hb, eb⟩ | ⟨hb, eb⟩
    · rcases regIndex_cases d with ⟨rd, hd, ed⟩ | ⟨hd, ed⟩
      · have hd' : ¬ 32 ≤ d.toNat := by omega
        rw [arithBody_of_lt _ ha hb hd, map_writeAlu_continueAt, hop]
        simp only [bind_run, Reg_run, SetReg_run, pure_run, ea, eb, ed, hd', if_false, State.setPc_readReg]
        cases op b (s32 (s.readReg ra)) (s32 (s.readReg rb)) (s.setPc (s.pc + 4)) <;> rfl
      · simp only [bind_run, Reg_run, raiseFault_run, ea, eb, ed, hd, if_true, arithBody, regsABD]
        rfl
    · simp only [bind_run, Reg_run, ea, eb, arithBody, regsABD]
      rfl
  · simp only [bind_run, Reg_run, ea, arithBody, regsABD]
    rfl

/-- In wrap mode the ALU gives the pattern that `SetReg` writes for the wrapped result (decision D4). -/
theorem wrap32_writes (v : Int) (rd : Fin 32) (u : State) :
    (Except.ok (u.writeReg rd (u32 v)) : Except Cause State) = .ok (u.writeReg rd (u32 (wrap32 v))) := by
  rw [wrap32, u32_s32]

/-- The operation of Div raises what the ALU raises, and writes `rem` before `SetReg` writes the quotient. -/
theorem opDiv_writes (b : Byte) (va vb : Int) (rd : Fin 32) (u : State) :
    (aluDiv Config.divOverflowMode b va vb).map (fun out => u.writeAlu rd out) =
      (opDiv b va vb u).map fun vt => vt.2.writeReg rd (u32 vt.1) := by
  by_cases hzero : vb = 0
  · subst hzero
    rw [aluDiv_zero]
    rfl
  · by_cases hover : va = -2147483648 ∧ vb = -1
    · obtain ⟨rfl, rfl⟩ := hover
      rfl
    · rw [aluDiv_quotient _ _ hzero hover]
      simp only [opDiv, hzero, hover, if_false, bind_run, modify_run, pure_run]
      rfl

/-- The six comparison bodies. -/
theorem agrees_compare {opc : Opcode} {mk : Byte → Byte → Byte → Instr} {rel : Int → Int → Prop} [DecidableRel rel]
    (s : State)
    (hexec : ∀ a b pad, exec (mk a b pad) s = finish s (compareBody (fun va vb => decide (rel va vb)) a b s)) :
    Agrees s (decodeThree opc mk (fetchWindow 3 s (s.pc + 1))) (compare rel) := by
  refine agrees_decodeThree s fun a b pad => (hexec a b pad).trans (finish_eq_conclude ?_)
  rcases regIndex_cases a with ⟨ra, ha, ea⟩ | ⟨ha, ea⟩
  · rcases regIndex_cases b with ⟨rb, hb, eb⟩ | ⟨hb, eb⟩
    · rw [compareBody_of_lt _ ha hb]
      simp only [bind_run, Reg_run, ea, eb, modify_run, pure_run]
      rfl
    · simp only [bind_run, Reg_run, ea, eb, compareBody, regsABX]
      rfl
  · simp only [bind_run, Reg_run, ea, compareBody, regsABX]
    rfl

/-- The body of Load: the immediate as a number has its zero extension as pattern. -/
theorem agrees_load (s : State) :
    Agrees s (decodeDI .load .load (fetchWindow 3 s (s.pc + 1))) (Dispatch .load s.pc) := by
  refine agrees_decodeDI s fun d imm => finish_eq_conclude ?_
  have himm : u32 imm.toNat = zext16 imm := (BitVec.ofInt_natCast 32 imm.toNat).trans (zext16_eq_ofNat imm).symm
  rcases regIndex_cases d with ⟨rd, hd, ed⟩ | ⟨hd, ed⟩
  · rw [loadBody_of_lt hd]
    simp only [bind_run, SetReg_run, ed, modify_run, pure_run, himm]
    rfl
  · simp only [bind_run, SetReg_run, ed, loadBody]
    rfl

/-- The bodies of the jumps: a jump to a target that its register and the state decide. -/
theorem agrees_jump {opc : Opcode} {mk : Byte → Instr} {target : Word → Word} {k : Int → Code Bool} (s : State)
    (hexec : ∀ r, exec (mk r) s = finish s ((readOperandR r s).map fun v => s.continueAt (target v)))
    (hk : ∀ v, k (s32 v) (s.setPc (s.pc + 2)) = .ok (true, s.setPc (target v))) :
    Agrees s (decodeR opc mk (fetchWindow 3 s (s.pc + 1))) (Fetch8 >>= fun r => Reg r >>= k) := by
  refine agrees_decodeR s fun r => (hexec r).trans (finish_eq_conclude ?_)
  rcases regIndex_cases r with ⟨q, hq, eq⟩ | ⟨hr, er⟩
  · rw [readOperandR_of_lt hq]
    simp only [bind_run, Reg_run, eq, State.setPc_readReg, hk]
    rfl
  · simp only [bind_run, Reg_run, er, readOperandR]
    rfl

/-! ### The step -/

/-- The sixteen bodies, after the opcode byte (40_step_and_dispatch.md R93). -/
theorem agrees_dispatch {s : State} {b : Byte} (hb : s.progByte s.pc.toNat = some b) :
    Agrees s (decode (b :: fetchWindow 3 s (s.pc + 1))) (Dispatch (decodeOpcode b) s.pc) := by
  rw [decode]
  have hread : s.prog.read s.pc.toNat = b := by
    rw [State.progByte_of_lt (State.lt_of_progByte hb)] at hb
    exact Option.some.inj hb
  cases decodeOpcode b with
  | halt => rfl
  | illegalOpcode =>
    simp only [Agrees, Dispatch, bind_run, modify_run, pure_run]
    subst hread
    rfl
  | load => exact agrees_load s
  | add | sub | mul => exact agrees_arith s (fun _ _ _ => rfl) fun _ _ _ rd u => wrap32_writes _ rd u
  | div => exact agrees_arith s (fun _ _ _ => rfl) opDiv_writes
  | jump =>
    refine agrees_jump s (target := id) (fun _ => rfl) fun v => ?_
    simp only [bind_run, modify_run, pure_run, u32_s32]
    rfl
  | jumpForward => exact agrees_jump s (target := fun v => pcPlus (s.pc + 2) (s32 v)) (fun _ => rfl) fun v => rfl
  | jumpIfEqual =>
    refine agrees_jump s (target := fun v => if s.flag then v else s.pc + 2) (fun _ => rfl) fun v => ?_
    simp only [bind_run, get_run]
    by_cases hflag : (s.setPc (s.pc + 2)).flag = true
    · rw [if_pos hflag, if_pos (show s.flag = true from hflag), bind_run, modify_run, u32_s32]
      rfl
    · rw [if_neg hflag, if_neg (show ¬s.flag = true from hflag)]
      rfl
  | equal | notEqual | greaterThan | lessThan | greaterOrEqual | lessOrEqual =>
    exact agrees_compare s fun _ _ _ => rfl

/-- Settles O13: in Faulted and at the end of the buffer both stop; at a byte both dispatch on it. -/
theorem stepIsTheSpecsPseudocode : Obligations.StepIsTheSpecsPseudocode := by
  intro s
  cases hf : s.isFaulted with
  | true =>
    rw [Step_of_faulted hf]
    exact ⟨step_of_faulted hf, (report_of_isFaulted hf).symm⟩
  | false =>
    by_cases hpc : s.progLen ≤ s.pc.toNat
    · rw [Step_of_exhausted hf hpc]
      exact ⟨step_of_exhausted hf hpc, rfl⟩
    · have hlt : s.pc.toNat < s.progLen := Nat.lt_of_not_le hpc
      have hb := State.progByte_of_lt hlt
      rw [Step_of_byte hf hb, step_eq_outcomeOf hf hlt, maxInstrLength, fetchWindow_of_some hb]
      exact ⟨agrees_dispatch hb, conclude_report s _⟩

end Sys2Proof.Machine.Pseudo
